-- ==== Sys2Proof/Word.lean ====
section
/-! DEFINITION. The word types of the machine: the widths of the table "Parameters" (R10) and of the operand letters (R12). -/

namespace Sys2Proof

/-- A byte of memory, a general register, a timer, the operand `NN` (R10, R12). -/
abbrev Byte := BitVec 8

/-- An instruction word, `PC`, `I`, a call-stack slot (R25, R30, R36, R80). -/
abbrev Word := BitVec 16

/-- The 12-bit operand `NNN` (R12). -/
abbrev Addr := BitVec 12

/-- The 4-bit operand `N`, the height of a sprite (R12). -/
abbrev Nibble := BitVec 4

/-- The index of a general register, the operands `X` and `Y`: every one of 0 to 15 (R20, R83). -/
abbrev RegIdx := Fin 16

/-- A logical key index, 0 to 15 (R38, R194). -/
abbrev Key := Fin 16

/-- One draw of the randomness source: draw `d` stands for the byte `d + 1`, so that every draw is one of the bytes 1 to
255 and none is 0 (R106, R143). -/
abbrev Draw := Fin 255

end Sys2Proof
end

