-- ==== Sys2Proof/Config.lean ====
section
/-! DEFINITION. What is fixed for the machine (table "Parameters", R10), and the machine's one free value. -/

namespace Sys2Proof

/-- `FONT_SIZE`: the font region is 0x000 to 0x04F (R10, R61). -/
abbrev Config.fontSize : Nat := 80

/-- `RESET_PC` as an address: where a program image is loaded and where the first fetch reads (R10, R241, R243). -/
abbrev Config.loadBase : Nat := 512

/-- `PROG_MAX`: the largest program image, in bytes (R10, R243). -/
abbrev Config.progMax : Nat := 3584

/-- FREE VALUE (log 2). The randomness source: the draw offered with the `n`-th TICK that takes its byte from here.
It has no body, so nothing can be proved of it but that each draw is one of the bytes 1 to 255 (R106: "proves its claims
for every such `r`"). -/
opaque Config.randomDraw : Nat → Draw

/-- PRESUMED (log 6). The default value of the parameter `FONT`, table G1 of 93_implementation_defined.md, which the spec
supplies from general knowledge. No definition of the machine uses it: the boot functions take the font as an argument. -/
def Config.defaultFont : Vector Byte 80 :=
  #v[0xF0, 0x90, 0x90, 0x90, 0xF0, 0x20, 0x60, 0x20, 0x20, 0x70,
     0xF0, 0x10, 0xF0, 0x80, 0xF0, 0xF0, 0x10, 0xF0, 0x10, 0xF0,
     0x90, 0x90, 0xF0, 0x10, 0x10, 0xF0, 0x80, 0xF0, 0x10, 0xF0,
     0xF0, 0x80, 0xF0, 0x90, 0xF0, 0xF0, 0x10, 0x20, 0x40, 0x40,
     0xF0, 0x90, 0xF0, 0x90, 0xF0, 0xF0, 0x90, 0xF0, 0x10, 0xF0,
     0xF0, 0x90, 0xF0, 0x90, 0x90, 0xE0, 0x90, 0xE0, 0x90, 0xE0,
     0xF0, 0x80, 0x80, 0x80, 0xF0, 0xE0, 0x90, 0x90, 0x90, 0xE0,
     0xF0, 0x80, 0xF0, 0x80, 0xF0, 0xF0, 0x80, 0xF0, 0x80, 0x80]

end Sys2Proof
end

