-- ==== Sys2Proof/Syntax.lean ====
section
/-! DEFINITION. The instructions: one constructor for each row of the opcode map (R85), in the table's order, with the
operand fields its format cuts from the word (R81, R82). A word outside the map is no instruction (R86). -/

namespace Sys2Proof

/-- The 27 instructions (R2, R85). The pattern of each is its normative name (R90). -/
inductive Instr where
  /-- 00E0, `CLS` (R170). -/
  | cls
  /-- 00EE, `RET` (R120). -/
  | ret
  /-- 1NNN, `JP addr` (R121). -/
  | jp (nnn : Addr)
  /-- 2NNN, `CALL addr` (R122). -/
  | call (nnn : Addr)
  /-- 3XNN, `SE Vx, byte` (R123). -/
  | seByte (x : RegIdx) (nn : Byte)
  /-- 4XNN, `SNE Vx, byte` (R124). -/
  | sneByte (x : RegIdx) (nn : Byte)
  /-- 5XY0, `SE Vx, Vy` (R125). -/
  | seReg (x y : RegIdx)
  /-- 6XNN, `LD Vx, byte` (R140). -/
  | ldByte (x : RegIdx) (nn : Byte)
  /-- 7XNN, `ADD Vx, byte` (R141). -/
  | addByte (x : RegIdx) (nn : Byte)
  /-- 8XY0, `LD Vx, Vy` (R151). -/
  | ldReg (x y : RegIdx)
  /-- 8XY1, `OR Vx, Vy` (R152). -/
  | orReg (x y : RegIdx)
  /-- 8XY2, `AND Vx, Vy` (R153). -/
  | andReg (x y : RegIdx)
  /-- 8XY3, `XOR Vx, Vy` (R154). -/
  | xorReg (x y : RegIdx)
  /-- 8XY4, `ADD Vx, Vy` (R155). -/
  | addReg (x y : RegIdx)
  /-- 8XY5, `SUB Vx, Vy` (R156). -/
  | subReg (x y : RegIdx)
  /-- 8XY6, `SHR Vx, Vy` (R157). -/
  | shrReg (x y : RegIdx)
  /-- 8XY7, `SUBN Vx, Vy` (R158). -/
  | subnReg (x y : RegIdx)
  /-- 8XYE, `SHL Vx, Vy` (R159). -/
  | shlReg (x y : RegIdx)
  /-- 9XY0, `SNE Vx, Vy` (R126). -/
  | sneReg (x y : RegIdx)
  /-- ANNN, `LD I, addr` (R142). -/
  | ldI (nnn : Addr)
  /-- BNNN, `JP V0, addr` (R127). -/
  | jpV0 (nnn : Addr)
  /-- CXNN, `RND Vx, byte` (R143). -/
  | rnd (x : RegIdx) (nn : Byte)
  /-- DXYN, `DRW Vx, Vy, nibble` (R171). -/
  | drw (x y : RegIdx) (n : Nibble)
  /-- EX9E, `SKP Vx` (R190). -/
  | skp (x : RegIdx)
  /-- EXA1, `SKNP Vx` (R191). -/
  | sknp (x : RegIdx)
  /-- FX07, `LD Vx, DT` (R192). -/
  | ldDt (x : RegIdx)
  /-- FX0A, `LD Vx, K` (R193). -/
  | ldKey (x : RegIdx)
  deriving DecidableEq, Repr

end Sys2Proof
end

