-- ==== Sys2Proof/WellFormed.lean ====
section
/-! DEFINITION. The checks on what is given to the machine: an instruction's operands, and a program image.

R83 puts no restriction on an operand beyond its width ("0xF is allowed everywhere"), and the types of `Instr` are those
widths: an ill-formed instruction cannot be written down, and the check of an instruction accepts every term. The program
image is the one thing that can be ill-formed: the loader must refuse more than 3584 bytes (R243). -/

namespace Sys2Proof

/-- Each operand of the instruction is inside its field of the word (R81, R83). True of every term, by its type. -/
def Instr.WellFormed : Instr → Bool
  | .cls => true
  | .ret => true
  | .jp nnn => nnn.toNat < 4096
  | .call nnn => nnn.toNat < 4096
  | .seByte x nn => x.val < 16 && nn.toNat < 256
  | .sneByte x nn => x.val < 16 && nn.toNat < 256
  | .seReg x y => x.val < 16 && y.val < 16
  | .ldByte x nn => x.val < 16 && nn.toNat < 256
  | .addByte x nn => x.val < 16 && nn.toNat < 256
  | .ldReg x y => x.val < 16 && y.val < 16
  | .orReg x y => x.val < 16 && y.val < 16
  | .andReg x y => x.val < 16 && y.val < 16
  | .xorReg x y => x.val < 16 && y.val < 16
  | .addReg x y => x.val < 16 && y.val < 16
  | .subReg x y => x.val < 16 && y.val < 16
  | .shrReg x y => x.val < 16 && y.val < 16
  | .subnReg x y => x.val < 16 && y.val < 16
  | .shlReg x y => x.val < 16 && y.val < 16
  | .sneReg x y => x.val < 16 && y.val < 16
  | .ldI nnn => nnn.toNat < 4096
  | .jpV0 nnn => nnn.toNat < 4096
  | .rnd x nn => x.val < 16 && nn.toNat < 256
  | .drw x y n => x.val < 16 && y.val < 16 && n.toNat < 16
  | .skp x => x.val < 16
  | .sknp x => x.val < 16
  | .ldDt x => x.val < 16
  | .ldKey x => x.val < 16

/-- The loader accepts the image: at most 3584 bytes, any byte values, no header and no validation (R243). -/
def imageWellFormed (image : List Byte) : Bool := image.length ≤ Config.progMax

end Sys2Proof
end

