-- ==== Sys2Proof/Decode.lean ====
section
/-! DEFINITION. The decoder: the opcode map of R85 as a list of rows, mask, match and the fields each row cuts (R81), the
decoding procedure of R84, and the encoder written from the same bit patterns. Decoding is total: a word that no row matches
is an unsupported word (R86). -/

namespace Sys2Proof

/-- The field `X`, `w[11:8]` (R12, R81). -/
def fieldX (w : Word) : RegIdx := (w.extractLsb' 8 4).toFin

/-- The field `Y`, `w[7:4]` (R12, R81). -/
def fieldY (w : Word) : RegIdx := (w.extractLsb' 4 4).toFin

/-- The field `N`, `w[3:0]` (R12, R81). -/
def fieldN (w : Word) : Nibble := w.extractLsb' 0 4

/-- The field `NN`, `w[7:0]` (R12, R81). -/
def fieldNN (w : Word) : Byte := w.extractLsb' 0 8

/-- The field `NNN`, `w[11:0]` (R12, R81). -/
def fieldNNN (w : Word) : Addr := w.extractLsb' 0 12

/-- A row of the opcode map: a word `w` is the row's instruction when `w & mask == match` (R85). -/
structure OpcodeRow where
  mask : Word
  mtch : Word
  build : Word → Instr

/-- The table "Opcode map" (R85), its 27 rows in its order. -/
def opcodeMap : List OpcodeRow :=
  [ ⟨0xFFFF, 0x00E0, fun _ => .cls⟩,
    ⟨0xFFFF, 0x00EE, fun _ => .ret⟩,
    ⟨0xF000, 0x1000, fun w => .jp (fieldNNN w)⟩,
    ⟨0xF000, 0x2000, fun w => .call (fieldNNN w)⟩,
    ⟨0xF000, 0x3000, fun w => .seByte (fieldX w) (fieldNN w)⟩,
    ⟨0xF000, 0x4000, fun w => .sneByte (fieldX w) (fieldNN w)⟩,
    ⟨0xF00F, 0x5000, fun w => .seReg (fieldX w) (fieldY w)⟩,
    ⟨0xF000, 0x6000, fun w => .ldByte (fieldX w) (fieldNN w)⟩,
    ⟨0xF000, 0x7000, fun w => .addByte (fieldX w) (fieldNN w)⟩,
    ⟨0xF00F, 0x8000, fun w => .ldReg (fieldX w) (fieldY w)⟩,
    ⟨0xF00F, 0x8001, fun w => .orReg (fieldX w) (fieldY w)⟩,
    ⟨0xF00F, 0x8002, fun w => .andReg (fieldX w) (fieldY w)⟩,
    ⟨0xF00F, 0x8003, fun w => .xorReg (fieldX w) (fieldY w)⟩,
    ⟨0xF00F, 0x8004, fun w => .addReg (fieldX w) (fieldY w)⟩,
    ⟨0xF00F, 0x8005, fun w => .subReg (fieldX w) (fieldY w)⟩,
    ⟨0xF00F, 0x8006, fun w => .shrReg (fieldX w) (fieldY w)⟩,
    ⟨0xF00F, 0x8007, fun w => .subnReg (fieldX w) (fieldY w)⟩,
    ⟨0xF00F, 0x800E, fun w => .shlReg (fieldX w) (fieldY w)⟩,
    ⟨0xF00F, 0x9000, fun w => .sneReg (fieldX w) (fieldY w)⟩,
    ⟨0xF000, 0xA000, fun w => .ldI (fieldNNN w)⟩,
    ⟨0xF000, 0xB000, fun w => .jpV0 (fieldNNN w)⟩,
    ⟨0xF000, 0xC000, fun w => .rnd (fieldX w) (fieldNN w)⟩,
    ⟨0xF000, 0xD000, fun w => .drw (fieldX w) (fieldY w) (fieldN w)⟩,
    ⟨0xF0FF, 0xE09E, fun w => .skp (fieldX w)⟩,
    ⟨0xF0FF, 0xE0A1, fun w => .sknp (fieldX w)⟩,
    ⟨0xF0FF, 0xF007, fun w => .ldDt (fieldX w)⟩,
    ⟨0xF0FF, 0xF00A, fun w => .ldKey (fieldX w)⟩ ]

/-- The row's instruction is the word's (R84, R85). -/
def OpcodeRow.covers (r : OpcodeRow) (w : Word) : Bool := w &&& r.mask == r.mtch

/-- The decoding procedure (R84): the instruction of the row that matches, `none` for an unsupported word (R86). -/
def decode (w : Word) : Option Instr := (opcodeMap.find? (·.covers w)).map (·.build w)

/-- The instruction word of two consecutive bytes, the byte at the lower address first (R63, R101). -/
def wordOfBytes (hi lo : Byte) : Word := hi ++ lo

/-- The byte at the lower address: bits 15 to 8 of the word (R63). -/
def highByte (w : Word) : Byte := w.extractLsb' 8 8

/-- The byte at the higher address: bits 7 to 0 of the word (R63). -/
def lowByte (w : Word) : Byte := w.extractLsb' 0 8

/-- What decoding bytes answers: an instruction and the bytes after it, or a rejection by name. -/
inductive Decoded where
  /-- The first two bytes are this instruction; `rest` follows it. -/
  | instr (i : Instr) (rest : List Byte)
  /-- The first two bytes are a word outside the opcode map, which the machine runs as a no-operation (R86, R103). -/
  | unsupported (w : Word) (rest : List Byte)
  /-- There are fewer than two bytes: no instruction word. -/
  | truncated
  deriving DecidableEq, Repr

/-- Decoding of bytes, total: every instruction is exactly one big-endian word (R63, R80). -/
def decodeBytes : List Byte → Decoded
  | hi :: lo :: rest =>
    match decode (wordOfBytes hi lo) with
    | some i => .instr i rest
    | none => .unsupported (wordOfBytes hi lo) rest
  | _ => .truncated

/-- The bits of a register operand (R81). -/
def regBits (x : RegIdx) : BitVec 4 := BitVec.ofFin x

/-- The word of an instruction, from the bit pattern of its row (R85): the family nibble, then the fields of its format
(R82). -/
def encode : Instr → Word
  | .cls => 0x00E0
  | .ret => 0x00EE
  | .jp nnn => 0x1#4 ++ nnn
  | .call nnn => 0x2#4 ++ nnn
  | .seByte x nn => 0x3#4 ++ regBits x ++ nn
  | .sneByte x nn => 0x4#4 ++ regBits x ++ nn
  | .seReg x y => 0x5#4 ++ regBits x ++ regBits y ++ 0x0#4
  | .ldByte x nn => 0x6#4 ++ regBits x ++ nn
  | .addByte x nn => 0x7#4 ++ regBits x ++ nn
  | .ldReg x y => 0x8#4 ++ regBits x ++ regBits y ++ 0x0#4
  | .orReg x y => 0x8#4 ++ regBits x ++ regBits y ++ 0x1#4
  | .andReg x y => 0x8#4 ++ regBits x ++ regBits y ++ 0x2#4
  | .xorReg x y => 0x8#4 ++ regBits x ++ regBits y ++ 0x3#4
  | .addReg x y => 0x8#4 ++ regBits x ++ regBits y ++ 0x4#4
  | .subReg x y => 0x8#4 ++ regBits x ++ regBits y ++ 0x5#4
  | .shrReg x y => 0x8#4 ++ regBits x ++ regBits y ++ 0x6#4
  | .subnReg x y => 0x8#4 ++ regBits x ++ regBits y ++ 0x7#4
  | .shlReg x y => 0x8#4 ++ regBits x ++ regBits y ++ 0xE#4
  | .sneReg x y => 0x9#4 ++ regBits x ++ regBits y ++ 0x0#4
  | .ldI nnn => 0xA#4 ++ nnn
  | .jpV0 nnn => 0xB#4 ++ nnn
  | .rnd x nn => 0xC#4 ++ regBits x ++ nn
  | .drw x y n => 0xD#4 ++ regBits x ++ regBits y ++ n
  | .skp x => 0xE#4 ++ regBits x ++ 0x9E#8
  | .sknp x => 0xE#4 ++ regBits x ++ 0xA1#8
  | .ldDt x => 0xF#4 ++ regBits x ++ 0x07#8
  | .ldKey x => 0xF#4 ++ regBits x ++ 0x0A#8

/-- The first word of an instruction whose bits, numbered as the opcode table numbers them, are the low `nbits` of `w`.
Every instruction is one word (R80), so any bits above bit 15 are bits of no instruction. -/
def tableWord (nbits w : Nat) : Word := BitVec.ofNat 16 (w % 2 ^ nbits)

/-- The instruction the decoder reads from the table's bits: the word is laid out as the hardware stores it, its high byte
at the lower address (R63), and its bytes are decoded. -/
def decodeTableWord (nbits w : Nat) : Option Instr :=
  match decodeBytes [highByte (tableWord nbits w), lowByte (tableWord nbits w)] with
  | .instr i _ => some i
  | .unsupported _ _ => none
  | .truncated => none

end Sys2Proof
end

