-- ==== Sys2Proof/Machine/State.lean ====
section
/-! DEFINITION. The state of the machine, as plain data: every piece of state of 10_state.md (table "Reset values", R45),
and the model's own fields, which carry the interface (log 1, log 2, log 4, log 5). -/

namespace Sys2Proof.Machine

/-- The run state (R33). It is no privilege level (R220). -/
inductive Mode where
  /-- The next TICK fetches and executes an instruction. -/
  | run
  /-- An FX0A waits for a KEY_DOWN (R193). -/
  | waitKey
  /-- A fatal fault has occurred; only RESET leaves (R211). -/
  | halted
  deriving DecidableEq, Repr

/-- The fatal faults (R210); `none : Option Fault` is the code `NONE`. The fault sequence of R211 is TAKEN: the meaning or
the fetch that raises a fault answers a NEXT state, in `HALTED` with the code in `fault` (log 3). No step of this machine
answers `Outcome.fault`. Each constructor is the spec's own behaviour, so raising it is safe wherever the spec's decision is
(92_eei_decisions.md part 2: a claim should require that no fault occurred). -/
inductive Fault where
  /-- Code 1, raised by 00EE when `sp == 0` (R120). Safe. -/
  | stackUnderflow
  /-- Code 2, raised by 2NNN when `sp == 16` (R122). Safe. -/
  | stackOverflow
  /-- Code 3, raised by a fetch with `PC > 4094` (R101) and by DXYN for a row above address 4095 (R171). Safe. -/
  | memBounds
  /-- Code 4, raised by DXYN for a set sprite bit with an index above 2047 (R171). Safe. -/
  | fbBounds
  /-- Code 5, raised by EX9E and EXA1 when `V[X] > 15` (R190, R191). Safe. -/
  | keyBounds
  deriving DecidableEq, Repr

/-- Why a step has no meaning. -/
inductive Refusal where
  /-- Raised by an arm of `exec` whose instruction has no meaning yet; no arm does. Safe. -/
  | notModelled (mnemonic : String)
  /-- Raised by a LOAD event after the first TICK: a host that breaks its duty is outside the spec (R42, R244, U16 of
  93_implementation_defined.md; log 5). No instruction raises it. Safe. -/
  | loadAfterFirstTick
  deriving DecidableEq, Repr

/-- The interface events from the outside to the core, table "Input events" (R42). The duties "`k <= 15`", "never offers 0"
and "address 0 to 4095" (R42, R244) are the types of the arguments. -/
inductive Input where
  /-- TICK(r): one fetch, one instruction, one timer step; the byte `r` is draw + 1 (R100, R106). -/
  | tick (r : Draw)
  /-- KEY_DOWN(k) (R194). -/
  | keyDown (k : Key)
  /-- KEY_UP(k) (R194). -/
  | keyUp (k : Key)
  /-- PRESENT (R248). -/
  | present
  /-- LOAD(a, b) (R242, R243). -/
  | load (a : Fin 4096) (b : Byte)
  /-- RESET (R240). -/
  | reset
  deriving DecidableEq, Repr

/-- The framebuffer: 2048 pixels of one bit, bit `n` is the pixel of linear index `n`, 1 is lit (R40, R43). -/
abbrev Framebuffer := BitVec 2048

/-- What the core shows to the outside as events (R43, R210, R248). -/
inductive Output where
  /-- `Diag(w)`: an unsupported word was executed (R213). -/
  | diag (w : Word)
  /-- A fatal fault and the `info` the table "Faults" gives it (R210). -/
  | fault (f : Fault) (info : Option Nat)
  /-- The framebuffer snapshot the sink receives at PRESENT (R248). -/
  | frame (fb : Framebuffer)
  deriving DecidableEq, Repr

/-- Main memory: the bytes that are not 0, by address, in rising order of the address (R39). An unlisted address reads 0,
its value after RESET (R45). -/
abbrev Memory := List Host.Cell

/-- The state of the machine. -/
structure State where
  /-- `V[0]` to `V[15]` (R20). -/
  v : Vector Byte 16
  /-- `I` (R30). -/
  regI : Word
  /-- `PC` (R25). -/
  pc : Word
  /-- `sp`, 0 to 16 (R31). -/
  sp : Fin 17
  /-- `stack[0]` to `stack[15]` (R36). -/
  stack : Vector Word 16
  /-- `DT` (R32). -/
  dt : Byte
  /-- `ST` (R32). -/
  st : Byte
  /-- `mem[0]` to `mem[4095]` (R39). -/
  mem : Memory
  /-- `fb[0]` to `fb[2047]` (R40). -/
  fb : Framebuffer
  /-- `keypad[0]` to `keypad[15]` (R38). -/
  keypad : Vector Bool 16
  /-- `should_redraw` (R24). -/
  shouldRedraw : Bool
  /-- `mode` (R33). -/
  mode : Mode
  /-- `fault` (R34). -/
  fault : Option Fault
  /-- `wait_x` (R35). -/
  waitX : RegIdx
  /-- The model's own: the random byte offered with the current TICK (R106; log 2). -/
  rnd : Byte
  /-- The model's own: how many TICKs took their random byte from `Config.randomDraw` (log 2). -/
  draws : Nat
  /-- The model's own: a TICK has been executed since RESET (R42; log 5). -/
  started : Bool
  /-- The model's own: the interface events that come next, in order (R42; log 1). -/
  inputs : List Input
  /-- The model's own: the output events so far, newest first (R43; log 4). -/
  outputs : List Output
  deriving DecidableEq, Repr

/-- The machine right after RESET: all zero but `PC`, in `RUN`, with no fault (R45, R240). The last five fields are the
model's own (DESIGN CHOICE, log 12). -/
def State.reset : State where
  v := Vector.replicate 16 0
  regI := 0
  pc := 0x200
  sp := 0
  stack := Vector.replicate 16 0
  dt := 0
  st := 0
  mem := []
  fb := 0
  keypad := Vector.replicate 16 false
  shouldRedraw := false
  mode := .run
  fault := none
  waitX := 0
  rnd := 1
  draws := 0
  started := false
  inputs := []
  outputs := []

end Sys2Proof.Machine
end

