-- ==== Sys2Proof/Machine/Memory.lean ====
section
/-! DEFINITION. Main memory: its canonical form, reading one byte, writing one byte (R39, R66). Only the LOAD event writes
(R67). -/

namespace Sys2Proof.Machine

/-- The canonical form: addresses strictly rising, each below 4096, no entry equal to what an unlisted address reads as. -/
def Memory.wf : Memory → Bool
  | [] => true
  | [(a, b)] => b != 0 && a < 4096
  | (a, b) :: (a', b') :: m => b != 0 && a < a' && Memory.wf ((a', b') :: m)

/-- The byte at an address; 0 where nothing is listed (R45). The bounds of R68 are tested by the callers. -/
def Memory.read : Memory → Nat → Byte
  | [], _ => 0
  | (a', b) :: m, a => if a' = a then b else Memory.read m a

/-- Write one byte, keeping the canonical form: the entry of a byte 0 is removed. -/
def Memory.write : Memory → Nat → Byte → Memory
  | [], a, b => if b = 0 then [] else [(a, b)]
  | (a', b') :: m, a, b =>
    if a < a' then if b = 0 then (a', b') :: m else (a, b) :: (a', b') :: m
    else if a = a' then if b = 0 then m else (a, b) :: m
    else (a', b') :: Memory.write m a b

/-- Write consecutive bytes, the first at `base` (R242, R243). -/
def Memory.writeBytes : Memory → Nat → List Byte → Memory
  | m, _, [] => m
  | m, base, b :: bs => Memory.writeBytes (Memory.write m base b) (base + 1) bs

/-- The big-endian word at `a` and `a + 1` (R63, R101). -/
def Memory.readWord (m : Memory) (a : Nat) : Word := wordOfBytes (Memory.read m a) (Memory.read m (a + 1))

end Sys2Proof.Machine
end

