-- ==== Sys2Proof/Machine/Ops.lean ====
section
/-! DEFINITION. The named operations over registers, stack, memory, framebuffer, keypad and timers, the fault sequence
(R211) and, beside it, the only way out of it, RESET (R240). Every meaning is written over these. -/

namespace Sys2Proof.Machine

/-- What a step or a meaning answers. -/
abbrev Outcome := Host.Outcome State Fault Refusal

/-! General registers (R20): all sixteen are read and written alike, VF included. -/

/-- Read `V[x]`. -/
def State.reg (s : State) (x : RegIdx) : Byte := s.v[x.val]

/-- Write `V[x]`. -/
def State.setReg (s : State) (x : RegIdx) (b : Byte) : State := { s with v := s.v.set x.val b }

/-! `I` and `PC` (R25, R30). -/

/-- Write `I` (R142). -/
def State.setI (s : State) (a : Word) : State := { s with regI := a }

/-- Write `PC`; no alignment or range check (R130). -/
def State.jump (s : State) (a : Word) : State := { s with pc := a }

/-- Move `PC` over one instruction word (R80, R101, R129). -/
def State.advance (s : State) : State := { s with pc := s.pc + 2 }

/-- A skip instruction's last step: over one more word when the condition holds (R129). -/
def State.skipIf (s : State) (c : Bool) : State := if c then s.advance else s

/-! The call stack (R36). -/

/-- Push a return address; `none` when all 16 slots are in use (R122). -/
def State.push? (s : State) (ret : Word) : Option State :=
  if h : s.sp.val < 16 then
    some { s with stack := s.stack.set s.sp.val ret, sp := ⟨s.sp.val + 1, by omega⟩ }
  else none

/-- Pop a return address and clear its slot; `none` when the stack is empty (R120). -/
def State.pop? (s : State) : Option (Word × State) :=
  if h : 0 < s.sp.val then
    have hs := s.sp.isLt
    some (s.stack[s.sp.val - 1],
      { s with stack := s.stack.set (s.sp.val - 1) 0, sp := ⟨s.sp.val - 1, by omega⟩ })
  else none

/-! Main memory (R68: an access beyond the array answers nothing). -/

/-- `MemRead(a, 1)` at a natural-number address (R13, R69); `none` above 4095. -/
def State.memRead? (s : State) (a : Nat) : Option Byte := if a ≤ 4095 then some (s.mem.read a) else none

/-- `MemWrite(a, 1, b)`, used by LOAD only (R13, R67). -/
def State.memWrite (s : State) (a : Fin 4096) (b : Byte) : State := { s with mem := s.mem.write a.val b }

/-! The framebuffer (R40). -/

/-- Is the pixel of linear index `n` lit? -/
def State.pixel (s : State) (n : Nat) : Bool := s.fb.getLsbD n

/-- XOR the pixel of linear index `n` with 1 (R171). -/
def State.togglePixel (s : State) (n : Nat) : State := { s with fb := s.fb ^^^ BitVec.twoPow 2048 n }

/-- Every pixel 0 (R170). -/
def State.clearScreen (s : State) : State := { s with fb := 0 }

/-- Set the redraw flag (R24). -/
def State.setRedraw (s : State) : State := { s with shouldRedraw := true }

/-! The keypad (R38). -/

/-- The level of the key a register names: the whole byte is the index; `none` above 15 (R190). -/
def State.keyLevel? (s : State) (k : Byte) : Option Bool :=
  if h : k.toNat < 16 then some s.keypad[k.toNat] else none

/-- Record a key's level (R194). -/
def State.setKey (s : State) (k : Key) (down : Bool) : State := { s with keypad := s.keypad.set k.val down }

/-- The first half of FX0A: remember the destination and wait (R193). -/
def State.beginWait (s : State) (x : RegIdx) : State := { s with waitX := x, mode := .waitKey }

/-! Timers (R32, R195, R196). -/

/-- Count one timer down, stopping at 0 (R195). -/
def countDown (t : Byte) : Byte := if t = 0 then 0 else t - 1

/-- `TimerStep()` (R195). -/
def State.timerStep (s : State) : State := { s with dt := countDown s.dt, st := countDown s.st }

/-- The output `sound_on` (R43, R196). -/
def State.soundOn (s : State) : Bool := s.st != 0

/-! The random byte (R106). -/

/-- The byte of a draw, 1 to 255. -/
def drawByte (r : Draw) : Byte := BitVec.ofNat 8 (r.val + 1)

/-- A TICK is executed: its random byte is offered, and the machine has started (R106; log 2, log 5). -/
def State.offer (s : State) (r : Draw) : State := { s with rnd := drawByte r, started := true }

/-! Outputs (R43). -/

/-- Show an output event (log 4). -/
def State.emit (s : State) (o : Output) : State := { s with outputs := o :: s.outputs }

/-- The output `fault` as the number of the table "Faults" (R43, R210). -/
def faultCode : Option Fault → Nat
  | none => 0
  | some .stackUnderflow => 1
  | some .stackOverflow => 2
  | some .memBounds => 3
  | some .fbBounds => 4
  | some .keyBounds => 5

/-! The fault sequence and the way out of it. -/

/-- `raise f(info)`, the machine's only form of trap entry (R211, R217): the code to `fault`, `mode` to `HALTED`, the fault
and its info offered to the host; nothing saved, no vector, `PC` not changed. The caller ends there. -/
def State.halt (s : State) (f : Fault) (info : Option Nat) : State :=
  { s with fault := some f, mode := .halted, outputs := .fault f info :: s.outputs }

/-- `raise` as the answer of a meaning: the fault sequence is taken (log 3). -/
def raise (f : Fault) (info : Option Nat) (s : State) : Outcome := .next (s.halt f info)

/-- RESET, the only continuation after a fault (R218, R240): every field of the spec takes its reset value. The events still
to come, the outputs already shown and the count of the draws belong to the outside and stay (log 9). -/
def State.restart (s : State) : State :=
  { State.reset with inputs := s.inputs, outputs := s.outputs, draws := s.draws }

/-! A handler in progress: it goes on, or it has raised a fault in the middle with the effects so far (R171, R212). -/

/-- A handler's state of affairs after one of its steps. -/
inductive Flow where
  /-- It goes on from this state. -/
  | go (s : State)
  /-- It has raised this fault, with this info, in this state. -/
  | stop (f : Fault) (info : Nat) (s : State)
  deriving DecidableEq, Repr

/-- Run one step for each element, in order, until one raises. -/
def forEach {α : Type} (f : α → State → Flow) : List α → State → Flow
  | [], s => .go s
  | a :: as, s =>
    match f a s with
    | .go t => forEach f as t
    | .stop k info t => .stop k info t

end Sys2Proof.Machine
end

