-- ==== Sys2Proof/Machine/Flags.lean ====
section
/-! DEFINITION. The flag computations: what the instructions with a flag write put into VF (R23), and the one sum whose
result depends on its flag (R155). -/

namespace Sys2Proof.Machine

/-- VF, the register the flag writes go to (R20, R23). -/
def vf : RegIdx := 15

/-- A flag as a register value: 0 or 1 (R23). -/
def flagByte (c : Bool) : Byte := if c then 1 else 0

/-- A flag write (R23). -/
def State.setFlag (s : State) (c : Bool) : State := s.setReg vf (flagByte c)

/-- The 16-bit sum of 8XY4 (R155). -/
def wideSum (a b : Byte) : Word := a.setWidth 16 + b.setWidth 16

/-- The carry of 8XY4: the 16-bit sum exceeds 255 (R155). -/
def carryOf (a b : Byte) : Bool := 255 < (wideSum a b).toNat

/-- The result of 8XY4: the sum, but its HIGH byte when it exceeds 255, a defect the document preserves (R3, R155). -/
def addResult (a b : Byte) : Byte :=
  if carryOf a b then (wideSum a b).extractLsb' 8 8 else (wideSum a b).extractLsb' 0 8

/-- The not-borrow flag of `a - b`: no borrow is needed (R156, R158). -/
def notBorrow (a b : Byte) : Bool := b.toNat ≤ a.toNat

/-- Bit 0, the flag of 8XY6 (R157). -/
def bitZero (a : Byte) : Bool := a.getLsbD 0

/-- Bit 7, the flag of 8XYE (R159). -/
def bitSeven (a : Byte) : Bool := a.getLsbD 7

end Sys2Proof.Machine
end

