-- ==== Sys2Proof/Machine/Alu.lean ====
section
/-! DEFINITION. The register-register ALU family (43_alu.md). The effects of an instruction with a flag write are two
register writes, in the document's order, the second reading the registers as the first left them (R150): it shows only
when X or Y is VF (R161). -/

namespace Sys2Proof.Machine

/-- 8XY0, copy (R151). -/
def execLdReg (x y : RegIdx) (s : State) : Outcome := .next (s.setReg x (s.reg y))

/-- 8XY1, bitwise OR (R152). -/
def execOrReg (x y : RegIdx) (s : State) : Outcome := .next (s.setReg x (s.reg x ||| s.reg y))

/-- 8XY2, bitwise AND (R153). -/
def execAndReg (x y : RegIdx) (s : State) : Outcome := .next (s.setReg x (s.reg x &&& s.reg y))

/-- 8XY3, bitwise exclusive OR (R154). -/
def execXorReg (x y : RegIdx) (s : State) : Outcome := .next (s.setReg x (s.reg x ^^^ s.reg y))

/-- 8XY4, add: the result, then the carry to VF, both from the one sum formed first (R155). -/
def execAddReg (x y : RegIdx) (s : State) : Outcome :=
  .next ((s.setReg x (addResult (s.reg x) (s.reg y))).setFlag (carryOf (s.reg x) (s.reg y)))

/-- A flag write, then the result from the registers as the flag write left them (R150). -/
def State.flagThenResult (s : State) (flag : Bool) (x : RegIdx) (result : State → Byte) : State :=
  let t := s.setFlag flag
  t.setReg x (result t)

/-- 8XY5, subtract: not-borrow to VF, then `V[X] - V[Y]` (R156). -/
def execSubReg (x y : RegIdx) (s : State) : Outcome :=
  .next (s.flagThenResult (notBorrow (s.reg x) (s.reg y)) x fun t => t.reg x - t.reg y)

/-- 8XY6, shift right: bit 0 of the old `V[X]` to VF, then `V[Y] >> 1` (R157). -/
def execShrReg (x y : RegIdx) (s : State) : Outcome :=
  .next (s.flagThenResult (bitZero (s.reg x)) x fun t => t.reg y >>> 1)

/-- 8XY7, reverse subtract: not-borrow to VF, then `V[Y] - V[X]` (R158). -/
def execSubnReg (x y : RegIdx) (s : State) : Outcome :=
  .next (s.flagThenResult (notBorrow (s.reg y) (s.reg x)) x fun t => t.reg y - t.reg x)

/-- 8XYE, shift left: bit 7 of `V[Y]` to VF, then `V[Y] << 1` modulo 256 (R159). -/
def execShlReg (x y : RegIdx) (s : State) : Outcome :=
  .next (s.flagThenResult (bitSeven (s.reg y)) x fun t => t.reg y <<< 1)

end Sys2Proof.Machine
end

