-- ==== Sys2Proof/Machine/Operands.lean ====
section
/-! DEFINITION. The operand forms (R77, R83): a register, an immediate, and the addresses an instruction computes. -/

namespace Sys2Proof.Machine

/-- `zext_16(NNN)`, as written to `PC` or `I` (R83). -/
def addrOperand (nnn : Addr) : Word := nnn.setWidth 16

/-- `zext_16(NNN) + zext_16(V[0])`: at most 0x10FE, not reduced modulo 4096 (R127). -/
def indexedAddr (s : State) (nnn : Addr) : Word := addrOperand nnn + (s.reg 0).setWidth 16

/-- The address of a sprite row, `I + row`, a natural number (R69, R77). -/
def rowAddr (s : State) (row : Nat) : Nat := s.regI.toNat + row

/-- The linear index of sprite bit (row, col) drawn at (x, y): `x + col + (y + row) * 64`, never reduced (R171, R172). -/
def pixelIndex (x y row col : Nat) : Nat := x + col + (y + row) * 64

/-- Bit (row, col) of a sprite row: column 0 is bit 7 (R171, R173). -/
def spriteBit (b : Byte) (col : Nat) : Bool := b.getLsbD (7 - col)

end Sys2Proof.Machine
end

