-- ==== Sys2Proof/Machine/ControlFlow.lean ====
section
/-! DEFINITION. Control transfer (41_control_flow.md). In every meaning `PC` is the address of the instruction plus 2
(R25). -/

namespace Sys2Proof.Machine

/-- 00EE, return: the popped slot to `PC`, the slot cleared; `StackUnderflow` on the empty stack, before any write (R120). -/
def execRet (s : State) : Outcome :=
  match s.pop? with
  | some (ret, t) => .next (t.jump ret)
  | none => raise .stackUnderflow none s

/-- 1NNN, jump; the stack is not touched (R121). -/
def execJp (nnn : Addr) (s : State) : Outcome := .next (s.jump (addrOperand nnn))

/-- 2NNN, call: push `PC`, the address after the CALL, then jump; `StackOverflow` on the full stack, before any write
(R122). -/
def execCall (nnn : Addr) (s : State) : Outcome :=
  match s.push? s.pc with
  | some t => .next (t.jump (addrOperand nnn))
  | none => raise .stackOverflow none s

/-- 3XNN, skip if `V[X] == NN` (R123). -/
def execSeByte (x : RegIdx) (nn : Byte) (s : State) : Outcome := .next (s.skipIf (s.reg x == nn))

/-- 4XNN, skip if `V[X] != NN` (R124). -/
def execSneByte (x : RegIdx) (nn : Byte) (s : State) : Outcome := .next (s.skipIf (s.reg x != nn))

/-- 5XY0, skip if `V[X] == V[Y]` (R125). -/
def execSeReg (x y : RegIdx) (s : State) : Outcome := .next (s.skipIf (s.reg x == s.reg y))

/-- 9XY0, skip if `V[X] != V[Y]` (R126). -/
def execSneReg (x y : RegIdx) (s : State) : Outcome := .next (s.skipIf (s.reg x != s.reg y))

/-- BNNN, jump to `NNN + V[0]` (R127). -/
def execJpV0 (nnn : Addr) (s : State) : Outcome := .next (s.jump (indexedAddr s nnn))

end Sys2Proof.Machine
end

