-- ==== Sys2Proof/Machine/Display.lean ====
section
/-! DEFINITION. The display engine (44_display.md): clear, and the XOR sprite blit, step by step as the listing "Draw" of
R171 has it. -/

namespace Sys2Proof.Machine

/-- 00E0, clear the framebuffer and set the redraw flag; VF kept (R170). -/
def execCls (s : State) : Outcome := .next s.clearScreen.setRedraw

/-- A set sprite bit meets the pixel of index `idx`: a collision sets VF, then the pixel is toggled (R171). -/
def State.blitPixel (s : State) (idx : Nat) : State :=
  (if s.pixel idx then s.setFlag true else s).togglePixel idx

/-- One sprite bit: a set bit is bounds-checked before its pixel is touched, a clear bit does nothing (R171, R172). -/
def drawBit (x y row : Nat) (b : Byte) (col : Nat) (s : State) : Flow :=
  if spriteBit b col then
    if pixelIndex x y row col ≤ 2047 then .go (s.blitPixel (pixelIndex x y row col))
    else .stop .fbBounds (pixelIndex x y row col) s
  else .go s

/-- One sprite row: the memory bounds check, then its columns in ascending order (R171, R216). -/
def drawRow (x y row : Nat) (s : State) : Flow :=
  match s.memRead? (rowAddr s row) with
  | some b => forEach (drawBit x y row b) (List.range 8) s
  | none => .stop .memBounds (rowAddr s row) s

/-- DXYN, draw: the coordinates latched, VF reset, the rows in ascending order, then the redraw flag. A fault keeps the
effects so far and does not set the redraw flag (R171, R212). -/
def execDrw (x y : RegIdx) (n : Nibble) (s : State) : Outcome :=
  match forEach (drawRow (s.reg x).toNat (s.reg y).toNat) (List.range n.toNat) (s.setFlag false) with
  | .go t => .next t.setRedraw
  | .stop f info t => raise f (some info) t

end Sys2Proof.Machine
end

