-- ==== Sys2Proof/Machine/Keypad.lean ====
section
/-! DEFINITION. The keypad skips, the timer read and the key wait (45_keypad_timer.md). -/

namespace Sys2Proof.Machine

/-- EX9E, skip if the key `V[X]` is down; `KeyBounds` above 15 (R190). -/
def execSkp (x : RegIdx) (s : State) : Outcome :=
  match s.keyLevel? (s.reg x) with
  | some down => .next (s.skipIf down)
  | none => raise .keyBounds (some (s.reg x).toNat) s

/-- EXA1, skip if the key `V[X]` is not down; `KeyBounds` above 15 (R191). -/
def execSknp (x : RegIdx) (s : State) : Outcome :=
  match s.keyLevel? (s.reg x) with
  | some down => .next (s.skipIf !down)
  | none => raise .keyBounds (some (s.reg x).toNat) s

/-- FX07, `V[X] <- DT`, before this tick's timer step (R192). -/
def execLdDt (x : RegIdx) (s : State) : Outcome := .next (s.setReg x s.dt)

/-- FX0A, first half: wait for a key-down event. The second half is the KEY_DOWN event (R193). -/
def execLdKey (x : RegIdx) (s : State) : Outcome := .next (s.beginWait x)

end Sys2Proof.Machine
end

