-- ==== Sys2Proof/Machine/LoadImmediate.lean ====
section
/-! DEFINITION. Immediate loads, immediate add, index load, random (42_load_immediate.md). None makes a flag write. -/

namespace Sys2Proof.Machine

/-- 6XNN, `V[X] <- NN` (R140). -/
def execLdByte (x : RegIdx) (nn : Byte) (s : State) : Outcome := .next (s.setReg x nn)

/-- 7XNN, `V[X] <- V[X] + NN` modulo 256, no flag (R141). -/
def execAddByte (x : RegIdx) (nn : Byte) (s : State) : Outcome := .next (s.setReg x (s.reg x + nn))

/-- ANNN, `I <- NNN` (R142). -/
def execLdI (nnn : Addr) (s : State) : Outcome := .next (s.setI (addrOperand nnn))

/-- CXNN, `V[X] <- r & NN`, `r` the byte offered with the tick (R143, R106; free value, log 2). -/
def execRnd (x : RegIdx) (nn : Byte) (s : State) : Outcome := .next (s.setReg x (s.rnd &&& nn))

end Sys2Proof.Machine
end

