-- ==== Sys2Proof/Machine/Tick.lean ====
section
/-! DEFINITION. The tick (40_tick_fetch_dispatch.md): mode check, fetch, dispatch to one handler, timer step. -/

namespace Sys2Proof.Machine

/-- `Fetch()`: the word at `PC` and the state with `PC` past it; `none` when `PC > 4094`, where nothing is read and nothing
changes (R101). -/
def fetch (s : State) : Option (Word × State) :=
  if s.pc.toNat ≤ 4094 then some (s.mem.readWord s.pc.toNat, s.advance) else none

/-- `Execute(w, r)`: the one matching instruction, or, for an unsupported word, the diagnostic alone (R102, R103). -/
def execute (w : Word) (s : State) : Outcome :=
  match decode w with
  | some i => exec i s
  | none => .next (s.emit (.diag w))

/-- The end of a tick: the timer step if the machine is still running, none after a fault or into a key wait (R100, R195). -/
def finishTick : Outcome → Outcome
  | .next t =>
    match t.mode with
    | .run => .next t.timerStep
    | .waitKey => .next t
    | .halted => .next t
  | .fault f => .fault f
  | .refused r => .refused r

/-- `Tick(r)` in `RUN`, after the mode check: fetch, which raises `MemBounds` when it cannot, then the handler, then the timer
step (R100, R101). -/
def runTick (r : Draw) (s : State) : Outcome :=
  match fetch (s.offer r) with
  | some (w, t) => finishTick (execute w t)
  | none => raise .memBounds (some s.pc.toNat) (s.offer r)

/-- `Tick(r)`: in `WAIT_KEY` and `HALTED` it changes nothing (R100, R104). -/
def tick (r : Draw) (s : State) : Outcome :=
  match s.mode with
  | .run => runTick r s
  | .waitKey => .next s
  | .halted => .next s

/-- The TICK that comes where no other event is pending: its random byte is the free value, a fresh one for every executed
tick (R106; log 1, log 2). -/
def freeTick (s : State) : Outcome :=
  match s.mode with
  | .run => runTick (Config.randomDraw s.draws) { s with draws := s.draws + 1 }
  | .waitKey => .next s
  | .halted => .next s

end Sys2Proof.Machine
end

