-- ==== Sys2Proof/Machine/Events.lean ====
section
/-! DEFINITION. The interface events (R42): what each does to the core. -/

namespace Sys2Proof.Machine

/-- KEY_DOWN(k): the key's level; in `WAIT_KEY` also the second half of FX0A, with the tick's one timer step; in `HALTED`
nothing (R193, R194, R211). -/
def keyDown (k : Key) (s : State) : State :=
  match s.mode with
  | .run => s.setKey k true
  | .waitKey =>
    { (s.setKey k true).setReg s.waitX (BitVec.ofNat 8 k.val) with mode := .run }.timerStep
  | .halted => s

/-- KEY_UP(k): the key's level, in any mode but `HALTED` (R194). -/
def keyUp (k : Key) (s : State) : State :=
  match s.mode with
  | .run => s.setKey k false
  | .waitKey => s.setKey k false
  | .halted => s

/-- PRESENT: the sink receives the framebuffer and the redraw flag is cleared; nothing when the flag is 0 or in `HALTED`
(R248). -/
def present (s : State) : State :=
  match s.mode, s.shouldRedraw with
  | .halted, _ => s
  | _, false => s
  | _, true => { s.emit (.frame s.fb) with shouldRedraw := false }

/-- LOAD(a, b): one byte of memory, only before the first TICK; nothing in `HALTED` (R42, R211, R243; log 5). -/
def load (a : Fin 4096) (b : Byte) (s : State) : Outcome :=
  match s.mode, s.started with
  | .halted, _ => .next s
  | _, true => .refused .loadAfterFirstTick
  | _, false => .next (s.memWrite a b)

/-- What an interface event does (R42). -/
def handleInput (e : Input) (s : State) : Outcome :=
  match e with
  | .tick r => tick r s
  | .keyDown k => .next (keyDown k s)
  | .keyUp k => .next (keyUp k s)
  | .present => .next (present s)
  | .load a b => load a b s
  | .reset => .next s.restart

/-- The next event: the first of those pending, and a TICK where none is (log 1). -/
def nextEvent (s : State) : Outcome :=
  match s.inputs with
  | [] => freeTick s
  | e :: rest => handleInput e { s with inputs := rest }

/-- Place one instruction word where the next step fetches it, and make the next step a TICK in `RUN` (log 10). Above
`PC = 4094` there is no place to fetch from, and memory stays. -/
def placeWord (s : State) (w : Word) : State :=
  { s with
    mem := if s.pc.toNat ≤ 4094 then s.mem.writeBytes s.pc.toNat [highByte w, lowByte w] else s.mem
    mode := .run
    fault := none
    inputs := [] }

end Sys2Proof.Machine
end

