-- ==== Sys2Proof/Machine/Step.lean ====
section
/-! DEFINITION. The step of the machine: one interface event, which is a TICK where no other is pending. -/

namespace Sys2Proof.Machine

/-- One step (R8, R42, R100; log 1). -/
def step (s : State) : Host.Outcome State Fault Refusal := nextEvent s

/-- `s` with the instruction whose bits are the low `nbits` of `w`, as the opcode table numbers them, stored where the next
step fetches (log 10). -/
def State.withFetchWord (s : State) (nbits w : Nat) : State := placeWord s (tableWord nbits w)

end Sys2Proof.Machine
end

