-- ==== Sys2Proof/Machine/Boot.lean ====
section
/-! DEFINITION. The boot sequence (R241): the LOAD events of the font install and the program load, and the booted state. The
font is an argument: the parameter `FONT` is OPEN (R10, D16; log 6). -/

namespace Sys2Proof.Machine

/-- LOAD events for consecutive bytes from `base`; a byte that would fall outside memory gives no event. -/
def loadInputs (base : Nat) : List Byte → List Input
  | [] => []
  | b :: bs => if h : base < 4096 then .load ⟨base, h⟩ b :: loadInputs (base + 1) bs else []

/-- Font installation: `LOAD(a, FONT[a])` for `a` from 0 to 79 (R242). -/
def fontInputs (font : Vector Byte 80) : List Input := loadInputs 0 font.toList

/-- Program load: `LOAD(512 + j, p[j])` for each byte of the image; an oversized image is refused by the loader, and the host
gives no event (R243). -/
def programInputs (image : List Byte) : Option (List Input) :=
  if imageWellFormed image then some (loadInputs Config.loadBase image) else none

/-- The events of the boot sequence after RESET and before the first TICK (R241). -/
def bootInputs (font : Vector Byte 80) (image : List Byte) : Option (List Input) :=
  (programInputs image).map (fontInputs font ++ ·)

/-- The booted state `Booted(FONT, p)`, the launch state of every run (R249). -/
def State.booted (font : Vector Byte 80) (image : List Byte) : State :=
  { State.reset with mem := (Memory.writeBytes [] 0 font.toList).writeBytes Config.loadBase image }

end Sys2Proof.Machine
end

