-- ==== Sys2Proof/Safety.lean ====
section
/-! DEFINITION. The terms claims are stated in: frames, the write matrix of R46, the settled states of R245, the invariants of
R250, and what a draw addresses, written from the rules and not from the meanings. -/

namespace Sys2Proof.Machine

/-! Frames. -/

/-- `t` differs from `s` in the listed general registers at most: every other register, and every other field, is the same. -/
def OnlyRegs (xs : List RegIdx) (s t : State) : Prop :=
  t = { s with v := t.v } ∧ ∀ r, r ∉ xs → t.reg r = s.reg r

/-- `t` differs from `s` in `PC` at most. -/
def OnlyPc (s t : State) : Prop := t = { s with pc := t.pc }

/-- Every byte of main memory reads the same. -/
def SameMemory (s t : State) : Prop := ∀ a, t.mem.read a = s.mem.read a

/-- Register `r` after a flag write of `c`, as a number: what the second step of a flag-writing instruction reads (R150). -/
def afterFlag (s : State) (c : Nat) (r : RegIdx) : Nat := if r = 15 then c else (s.reg r).toNat

/-- The instruction completes with an effect of which `P` holds. -/
def Completes (i : Instr) (s : State) (P : State → Prop) : Prop := ∃ t, exec i s = .next t ∧ P t

/-- A run of handlers one after the other, without the fetches and timer steps between them. -/
def runInstrs : List Instr → State → Outcome
  | [], s => .next s
  | i :: is, s =>
    match exec i s with
    | .next t => runInstrs is t
    | .fault f => .fault f
    | .refused r => .refused r

/-! The table "Writers" (R46). -/

/-- The instruction is an `8XY4`, `8XY5`, `8XY6`, `8XY7`, `8XYE` or `DXYN`: it makes a flag write to VF (R22, R23). -/
def writesFlag : Instr → Bool
  | .addReg _ _ | .subReg _ _ | .shrReg _ _ | .subnReg _ _ | .shlReg _ _ | .drw _ _ _ => true
  | _ => false

/-- The register the instruction writes through its X field, if it writes one (R22, R46). FX0A writes its register only when
the key arrives. -/
def destReg : Instr → Option RegIdx
  | .ldByte x _ | .addByte x _ | .ldReg x _ | .orReg x _ | .andReg x _ | .xorReg x _ | .addReg x _ | .subReg x _
  | .shrReg x _ | .subnReg x _ | .shlReg x _ | .rnd x _ | .ldDt x => some x
  | _ => none

/-- The instruction can write `PC` itself, beyond the fetch's step (R26, R46). -/
def writesPc : Instr → Bool
  | .ret | .jp _ | .call _ | .jpV0 _ | .seByte _ _ | .sneByte _ _ | .seReg _ _ | .sneReg _ _ | .skp _ | .sknp _ => true
  | _ => false

/-- The instruction is 2NNN or 00EE, the only ones that touch the call stack (R36, R46). -/
def touchesStack : Instr → Bool
  | .call _ | .ret => true
  | _ => false

/-- The instruction is 00E0 or DXYN, the only ones that write the framebuffer and the redraw flag (R40, R46). -/
def drawsScreen : Instr → Bool
  | .cls | .drw _ _ _ => true
  | _ => false

/-- The instruction is a CALL. -/
def isCall : Instr → Bool
  | .call _ => true
  | _ => false

/-- The instruction is a RET. -/
def isRet : Instr → Bool
  | .ret => true
  | _ => false

/-- When the instruction raises a fatal fault, and which, with its info: the rows of the table "Faults" for every instruction
but DXYN (R210). -/
def faultOf (s : State) : Instr → Option (Fault × Option Nat)
  | .ret => if s.sp = 0 then some (.stackUnderflow, none) else none
  | .call _ => if s.sp = 16 then some (.stackOverflow, none) else none
  | .skp x | .sknp x => if 15 < (s.reg x).toNat then some (.keyBounds, some (s.reg x).toNat) else none
  | _ => none

/-! Ticks. -/

/-- The word at `PC` (R101). -/
def State.nextWord (s : State) : Word := s.mem.readWord s.pc.toNat

/-- `PC` after a tick in `RUN` whose fetch succeeds, in the state `s` before the tick, as R107 lists it. -/
def pcAfterTick (s : State) : Option Instr → Nat
  | some (.jp nnn) => nnn.toNat
  | some (.call nnn) => if s.sp = 16 then s.pc.toNat + 2 else nnn.toNat
  | some (.jpV0 nnn) => nnn.toNat + (s.reg 0).toNat
  | some .ret => if s.sp = 0 then s.pc.toNat + 2 else (s.stack.toList.getD (s.sp.val - 1) 0).toNat
  | some (.seByte x nn) => s.pc.toNat + if s.reg x = nn then 4 else 2
  | some (.sneByte x nn) => s.pc.toNat + if s.reg x = nn then 2 else 4
  | some (.seReg x y) => s.pc.toNat + if s.reg x = s.reg y then 4 else 2
  | some (.sneReg x y) => s.pc.toNat + if s.reg x = s.reg y then 2 else 4
  | some (.skp x) => s.pc.toNat + if s.keypad.toList.getD (s.reg x).toNat false then 4 else 2
  | some (.sknp x) => s.pc.toNat + if s.keypad.toList.getD (s.reg x).toNat true then 2 else 4
  | _ => s.pc.toNat + 2

/-- The state in which the handler of a tick starts: the events left, the random byte and `PC` past the word (R25, R105). -/
def handlerState (s : State) (rest : List Input) (r : Draw) : State :=
  { s with inputs := rest, rnd := drawByte r, started := true, pc := s.pc + 2 }

/-- The next event is a TICK that offers the draw `r`: one that is pending, or the one that comes where none is (log 1). The
events left and the count of draws go with it. -/
def NextTick (s : State) (r : Draw) (rest : List Input) (draws : Nat) : Prop :=
  (s.inputs = .tick r :: rest ∧ draws = s.draws) ∨
    (s.inputs = [] ∧ rest = [] ∧ r = Config.randomDraw s.draws ∧ draws = s.draws + 1)

/-- The next event is a TICK. -/
def TickIsNext (s : State) : Prop := s.inputs.head?.elim True fun e => ∃ r, e = .tick r

/-- A settled state: the word at `PC` jumps to itself (R245). -/
def State.settled (s : State) : Bool :=
  s.mode == .run && s.pc.toNat ≤ 4094 && s.nextWord == 0x1000 ||| s.pc

/-- Every row of the table "Reset values", the output `sound_on` included (R45). -/
def HasResetValues (t : State) : Prop :=
  (∀ r, t.reg r = 0) ∧ t.regI = 0 ∧ t.pc = 0x200 ∧ (∀ n : Fin 16, t.stack[n.val] = 0) ∧ t.sp = 0 ∧ t.dt = 0 ∧ t.st = 0 ∧
  (∀ a, t.mem.read a = 0) ∧ (∀ p, t.pixel p = false) ∧ (∀ k : Key, t.keypad[k.val] = false) ∧ t.shouldRedraw = false ∧
  t.mode = .run ∧ t.fault = none ∧ t.waitX = 0 ∧ t.soundOn = false

/-! Invariants (R250). -/

/-- The state is one the run state allows: a fault code exactly in `HALTED` (R34, R250 f), and no wait or halt before the
first TICK. -/
def ControlInv (s : State) : Prop :=
  (s.fault = none ↔ s.mode ≠ .halted) ∧ (s.mode ≠ .run → s.started = true)

/-- The call stack: free slots are 0, slots in use hold a return address (R37, R250 d). -/
def StackInv (s : State) : Prop :=
  ∀ n : Fin 16, (s.sp.val ≤ n.val → s.stack[n.val] = 0) ∧
    (n.val < s.sp.val → 2 ≤ (s.stack[n.val]).toNat ∧ (s.stack[n.val]).toNat ≤ 4096)

/-- What R250 says of every state a booted machine reaches, clauses (a) to (d) and (f), with the canonical form of memory. -/
def Inv (s : State) : Prop :=
  (s.dt = 0 ∧ s.st = 0) ∧ s.regI.toNat ≤ 0x0FFF ∧ s.pc.toNat ≤ 0x10FE ∧ StackInv s ∧ ControlInv s ∧ s.mem.wf = true

/-! What a draw addresses (R171, R172, R174). -/

/-- The sprite bit (row, col) of a draw in the state `s` is set: a sprite row is the byte at `I + row`, column 0 its bit 7
(R173). -/
def SpriteBitSet (s : State) (row col : Nat) : Bool := (s.mem.read (s.regI.toNat + row)).getLsbD (7 - col)

/-- The draw of `N` rows at (x, y) addresses the pixel `p`: a set sprite bit (row, col) has the linear index
`x + col + (y + row) * 64` of `p`. -/
def Addresses (s : State) (x y n p : Nat) : Prop :=
  ∃ row < n, ∃ col < 8, SpriteBitSet s row col = true ∧ p = x + col + (y + row) * 64

/-- Every row of the sprite is in memory and every set bit on the screen: the draw raises no fault (R171, R210). -/
def DrawFits (s : State) (x y n : Nat) : Prop :=
  (∀ row < n, s.regI.toNat + row ≤ 4095) ∧ ∀ p, Addresses s x y n p → p ≤ 2047

/-- The positions (row, col) of a draw in the order of the listing "Draw" (R171, R216). -/
def drawOrder (n : Nat) : List (Nat × Nat) := (List.range n).flatMap fun row => (List.range 8).map fun col => (row, col)

/-- The check that fails at a position, if one does: the row's memory bounds first, then a set bit's framebuffer bounds
(R216). -/
def drawFailure (s : State) (x y : Nat) (p : Nat × Nat) : Option (Fault × Nat) :=
  if 4095 < s.regI.toNat + p.1 then some (.memBounds, s.regI.toNat + p.1)
  else if SpriteBitSet s p.1 p.2 = true ∧ 2047 < x + p.2 + (y + p.1) * 64 then some (.fbBounds, x + p.2 + (y + p.1) * 64)
  else none

/-- The pixels a draw toggles: the set bits before the first failing check (R171, R212). -/
def drawnPixels (s : State) (x y n : Nat) : List Nat :=
  (((drawOrder n).takeWhile fun p => (drawFailure s x y p).isNone).filter fun p => SpriteBitSet s p.1 p.2).map
    fun p => x + p.2 + (y + p.1) * 64

end Sys2Proof.Machine
end

