-- ==== Sys2Proof/Certificates/Slice0/Obligations.lean ====
section
/-! DEFINITION. The statements for the provers. Each docstring names the rule of spec/ it formalises. A handler starts with `PC`
past its word (R25), so an instruction's own effect on `PC` is measured from there. -/

open Sys2Proof Sys2Proof.Machine

/-! Encoding (30_encoding.md). -/

/-- Decoding an instruction's word gives the instruction back, with every operand at every value its field admits, and
decoding its two bytes does so and leaves the bytes after them (R80, R84, R85). -/
def Obligations.DecodeOfEncodeGivesTheInstruction : Prop :=
  ∀ (i : Instr), i.WellFormed = true →
    decode (encode i) = some i ∧
      ∀ rest, decodeBytes (highByte (encode i) :: lowByte (encode i) :: rest) = .instr i rest

/-- A word that decodes is the encoding of what it decodes to: no bit of a supported word is ignored (R85, R86). -/
def Obligations.EncodeOfDecodeGivesTheWord : Prop :=
  ∀ (w : Word) (i : Instr), decode w = some i → encode i = w

/-- The opcode map has 27 rows and no word matches two of them (R84). -/
def Obligations.OpcodeMapRowsAreDisjoint : Prop :=
  opcodeMap.length = 27 ∧
    ∀ (w : Word) (a b : Fin opcodeMap.length),
      (opcodeMap.get a).covers w = true → (opcodeMap.get b).covers w = true → a = b

/-- The unsupported words are exactly those of the table "Unsupported space" (R86). -/
def Obligations.UnsupportedWordsAreTheTableOfUnsupportedSpace : Prop :=
  ∀ w : Word, decode w = none ↔
    (w.toNat / 4096 = 0x0 ∧ w.toNat ≠ 0x00E0 ∧ w.toNat ≠ 0x00EE) ∨
    (w.toNat / 4096 = 0x5 ∧ 1 ≤ w.toNat % 16) ∨
    (w.toNat / 4096 = 0x8 ∧ w.toNat % 16 ∈ [8, 9, 0xA, 0xB, 0xC, 0xD, 0xF]) ∨
    (w.toNat / 4096 = 0x9 ∧ 1 ≤ w.toNat % 16) ∨
    (w.toNat / 4096 = 0xE ∧ w.toNat % 256 ∉ [0x9E, 0xA1]) ∨
    (w.toNat / 4096 = 0xF ∧ w.toNat % 256 ∉ [0x07, 0x0A])

/-- The operand fields are the bits R12 gives them. -/
def Obligations.OperandFieldsAreTheirBits : Prop :=
  ∀ w : Word, (fieldX w).val = w.toNat / 256 % 16 ∧ (fieldY w).val = w.toNat / 16 % 16 ∧
    (fieldN w).toNat = w.toNat % 16 ∧ (fieldNN w).toNat = w.toNat % 256 ∧ (fieldNNN w).toNat = w.toNat % 4096

/-- Words of the table of 95_test_vectors.md section 2.1 decode as that table says. -/
def Obligations.SampleWordsDecodeAsTheSpecLists : Prop :=
  decode 0x1ABC = some (.jp 0xABC) ∧ decode 0x3A7F = some (.seByte 0xA 0x7F) ∧ decode 0x8AB7 = some (.subnReg 0xA 0xB) ∧
    decode 0xD125 = some (.drw 1 2 5) ∧ decode 0xE1A1 = some (.sknp 1) ∧ decode 0xF10A = some (.ldKey 1) ∧
    decode 0x8AB8 = none ∧ decode 0xF155 = none ∧ decode 0x0000 = none

/-! The tick (40_tick_fetch_dispatch.md). -/

/-- Fetch: with `PC` at most 4094, odd or even (decision D11), the big-endian word at `PC` (R63), and `PC` moves by 2, and nothing
else changes (R101). With a larger `PC` there is no fetch: the tick raises `MemBounds` with `PC` as its info before any read,
and `PC` keeps its value (R101, decision D3). Both decisions are the spec's own, followed by log 7. -/
def Obligations.FetchReadsTheBigEndianWord : Prop :=
  ∀ s : State,
    (s.pc.toNat ≤ 4094 → ∃ w t, fetch s = some (w, t) ∧
      w.toNat = (s.mem.read s.pc.toNat).toNat * 256 + (s.mem.read (s.pc.toNat + 1)).toNat ∧
      OnlyPc s t ∧ t.pc.toNat = s.pc.toNat + 2) ∧
    (4094 < s.pc.toNat → fetch s = none ∧ ∀ r, runTick r s = raise .memBounds (some s.pc.toNat) (s.offer r))

/-- A tick in `RUN` whose fetched word decodes runs that instruction's meaning, from the state with `PC` past the word and the
tick's random byte offered, and then, if the machine still runs, one timer step (R25, R100, R102; the model's form of the
events: log 1). -/
def Obligations.StepRunsTheDecodedInstruction : Prop :=
  ∀ (s : State) (r : Draw) (rest : List Input) (d : Nat) (i : Instr),
    NextTick s r rest d → s.mode = .run → s.pc.toNat ≤ 4094 →
    decode (wordOfBytes (s.mem.read s.pc.toNat) (s.mem.read (s.pc.toNat + 1))) = some i → i.WellFormed = true →
    ∃ t, exec i { handlerState s rest r with draws := d } = .next t ∧
      step s = .next (if t.mode = .run then t.timerStep else t)

/-- A tick in `RUN` whose fetched word is unsupported emits the diagnostic, moves `PC` by 2, makes the timer step and changes
nothing else (R103, decision D14). -/
def Obligations.UnsupportedWordOnlyEmitsItsDiagnostic : Prop :=
  ∀ (s : State) (r : Draw) (rest : List Input) (d : Nat),
    NextTick s r rest d → s.mode = .run → s.pc.toNat ≤ 4094 → decode s.nextWord = none →
    ∃ t, step s = .next t ∧
      t = { s with inputs := rest, draws := d, rnd := drawByte r, started := true, pc := t.pc, dt := t.dt, st := t.st,
                   outputs := .diag s.nextWord :: s.outputs } ∧
      t.pc.toNat = s.pc.toNat + 2 ∧ t.dt.toNat = s.dt.toNat - 1 ∧ t.st.toNat = s.st.toNat - 1

/-- A tick in `RUN` with `PC` above 4094 raises `MemBounds` with `PC` as its info, whatever lies there; `PC` keeps the address that
could not be fetched and nothing else changes (R101, R211, R216; decision D3). -/
def Obligations.FetchBeyondMemoryHalts : Prop :=
  ∀ (s : State) (r : Draw) (rest : List Input) (d : Nat),
    NextTick s r rest d → s.mode = .run → 4094 < s.pc.toNat →
    step s = .next { s with inputs := rest, draws := d, rnd := drawByte r, started := true, mode := .halted,
                            fault := some .memBounds, outputs := .fault .memBounds (some s.pc.toNat) :: s.outputs }

/-- A TICK in `WAIT_KEY` or `HALTED` changes nothing and emits nothing (R104). -/
def Obligations.TickOutsideRunChangesNothing : Prop :=
  ∀ s : State, s.mode ≠ .run →
    (s.inputs = [] → step s = .next s) ∧
    ∀ r rest, s.inputs = .tick r :: rest → step s = .next { s with inputs := rest }

/-- Where `PC` is after a tick in `RUN` whose fetch succeeds, for every word (R107). -/
def Obligations.NetMovementOfPcInATick : Prop :=
  ∀ (s : State), TickIsNext s → s.mode = .run → s.pc.toNat ≤ 4094 →
    ∃ t, step s = .next t ∧ t.pc.toNat = pcAfterTick s (decode s.nextWord)

/-- The timer step: both timers count down by one, stopping at 0, in a tick that completes in `RUN` and in the KEY_DOWN that
ends a key wait, and in no other step; only RESET writes them otherwise (R195). -/
def Obligations.TimersCountDownOncePerCompletedTick : Prop :=
  ∀ s t : State, step s = .next t → s.inputs.head? ≠ some .reset →
    (((TickIsNext s ∧ s.mode = .run ∧ t.mode = .run) ∨ (s.mode = .waitKey ∧ ∃ k, s.inputs.head? = some (.keyDown k))) →
      t.dt.toNat = s.dt.toNat - 1 ∧ t.st.toNat = s.st.toNat - 1) ∧
    (¬((TickIsNext s ∧ s.mode = .run ∧ t.mode = .run) ∨ (s.mode = .waitKey ∧ ∃ k, s.inputs.head? = some (.keyDown k))) →
      t.dt = s.dt ∧ t.st = s.st)

/-- The output `sound_on` is on exactly when `ST` is not 0 (R196). -/
def Obligations.SoundIsOnWhileSoundTimerRuns : Prop :=
  ∀ s : State, (s.soundOn = true ↔ 0 < s.st.toNat) ∧
    (s.timerStep.soundOn = true ↔ 1 < s.st.toNat)

/-! Control transfer (41_control_flow.md). -/

/-- 00EE (R120, decision D17): with `sp` not 0, the popped slot to `PC`, the slot cleared, `sp` down by one; with `sp == 0`,
`StackUnderflow` before any write. -/
def Obligations.RetPopsTheReturnAddress : Prop :=
  decode 0x00EE = some .ret ∧ ∀ s : State,
    (∀ h : 0 < s.sp.val, ∃ t, exec .ret s = .next t ∧
      t = { s with pc := t.pc, sp := t.sp, stack := t.stack } ∧ t.sp.val = s.sp.val - 1 ∧
      t.pc = s.stack[s.sp.val - 1] ∧
      ∀ n : Fin 16, t.stack[n.val] = if n.val = s.sp.val - 1 then 0 else s.stack[n.val]) ∧
    (s.sp.val = 0 → exec .ret s = .next { s with
      fault := some .stackUnderflow, mode := .halted, outputs := .fault .stackUnderflow none :: s.outputs })

/-- 1NNN (R121): `PC` becomes NNN, and nothing else changes, the call stack included. -/
def Obligations.JpWritesItsTargetOnly : Prop :=
  ∀ (s : State) (nnn : Addr), decode (0x1#4 ++ nnn) = some (.jp nnn) ∧
    ∃ t, exec (.jp nnn) s = .next t ∧ OnlyPc s t ∧ t.pc.toNat = nnn.toNat

/-- 2NNN (R122, decision D6): with `sp` below 16, the `PC` the handler sees to the slot at `sp`, `sp` up by one, NNN to `PC`; with
`sp == 16`, `StackOverflow` before any write. -/
def Obligations.CallPushesTheReturnAddress : Prop :=
  ∀ (s : State) (nnn : Addr), decode (0x2#4 ++ nnn) = some (.call nnn) ∧
    (s.sp.val < 16 → ∃ t, exec (.call nnn) s = .next t ∧
      t = { s with pc := t.pc, sp := t.sp, stack := t.stack } ∧ t.sp.val = s.sp.val + 1 ∧
      t.pc.toNat = nnn.toNat ∧
      ∀ n : Fin 16, t.stack[n.val] = if n.val = s.sp.val then s.pc else s.stack[n.val]) ∧
    (s.sp.val = 16 → exec (.call nnn) s = .next { s with
      fault := some .stackOverflow, mode := .halted, outputs := .fault .stackOverflow none :: s.outputs })

/-- 3XNN and 4XNN (R123, R124): `PC` moves over one more word when the condition holds; nothing else changes. -/
def Obligations.SkipsOnAByteMoveOverOneWord : Prop :=
  ∀ (s : State) (x : RegIdx) (nn : Byte),
    decode (0x3#4 ++ regBits x ++ nn) = some (.seByte x nn) ∧ decode (0x4#4 ++ regBits x ++ nn) = some (.sneByte x nn) ∧
    (∃ t, exec (.seByte x nn) s = .next t ∧ OnlyPc s t ∧ t.pc = if s.reg x = nn then s.pc + 2 else s.pc) ∧
    (∃ t, exec (.sneByte x nn) s = .next t ∧ OnlyPc s t ∧ t.pc = if s.reg x = nn then s.pc else s.pc + 2)

/-- 5XY0 and 9XY0 (R125, R126): the same on two registers; with X = Y the first always skips and the second never does. -/
def Obligations.SkipsOnRegistersMoveOverOneWord : Prop :=
  ∀ (s : State) (x y : RegIdx),
    decode (0x5#4 ++ regBits x ++ regBits y ++ 0x0#4) = some (.seReg x y) ∧
    decode (0x9#4 ++ regBits x ++ regBits y ++ 0x0#4) = some (.sneReg x y) ∧
    (∃ t, exec (.seReg x y) s = .next t ∧ OnlyPc s t ∧ t.pc = if s.reg x = s.reg y then s.pc + 2 else s.pc) ∧
    (∃ t, exec (.sneReg x y) s = .next t ∧ OnlyPc s t ∧ t.pc = if s.reg x = s.reg y then s.pc else s.pc + 2)

/-- BNNN (R127, decision D12): `PC` becomes NNN + V[0], with no modulus; nothing else changes. -/
def Obligations.JpV0AddsRegisterZero : Prop :=
  ∀ (s : State) (nnn : Addr), decode (0xB#4 ++ nnn) = some (.jpV0 nnn) ∧
    ∃ t, exec (.jpV0 nnn) s = .next t ∧ OnlyPc s t ∧ t.pc.toNat = nnn.toNat + (s.reg 0).toNat

/-- Calls and returns are symmetric (R128): after `n` CALLs with no RET between them and then `n` RETs with no CALL between them,
whatever other instructions' handlers run in between, `sp` and every slot are as before the first CALL, and the last RET leaves
in `PC` the value it had when the first CALL's handler began. -/
def Obligations.ReturnsUndoCalls : Prop :=
  ∀ (s : State) (calls returns : List Instr) (nnn : Addr),
    calls.head? = some (.call nnn) → returns.getLast? = some .ret →
    (∀ i ∈ calls, isRet i = false) → (∀ i ∈ returns, isCall i = false) →
    calls.countP isCall = returns.countP isRet → calls.countP isCall ≤ 16 - s.sp.val →
    (∀ n : Fin 16, s.sp.val ≤ n.val → s.stack[n.val] = 0) →
    ∃ t, runInstrs (calls ++ returns) s = .next t ∧ t.sp = s.sp ∧ t.stack = s.stack ∧ t.pc = s.pc

/-! Immediate loads (42_load_immediate.md). -/

/-- 6XNN (R140): `V[X]` becomes NN; nothing else changes, VF not unless X is 15. -/
def Obligations.LdByteLoadsItsImmediate : Prop :=
  ∀ (s : State) (x : RegIdx) (nn : Byte), decode (0x6#4 ++ regBits x ++ nn) = some (.ldByte x nn) ∧
    ∃ t, exec (.ldByte x nn) s = .next t ∧ OnlyRegs [x] s t ∧ t.reg x = nn

/-- 7XNN (R141): `V[X]` becomes V[X] + NN modulo 256; no flag write. -/
def Obligations.AddByteWrapsWithoutFlag : Prop :=
  ∀ (s : State) (x : RegIdx) (nn : Byte), decode (0x7#4 ++ regBits x ++ nn) = some (.addByte x nn) ∧
    ∃ t, exec (.addByte x nn) s = .next t ∧ OnlyRegs [x] s t ∧ (t.reg x).toNat = ((s.reg x).toNat + nn.toNat) % 256

/-- ANNN (R142): `I` becomes NNN, so its bits 15 to 12 are 0; nothing else changes. -/
def Obligations.LdILoadsTheIndexRegister : Prop :=
  ∀ (s : State) (nnn : Addr), decode (0xA#4 ++ nnn) = some (.ldI nnn) ∧
    ∃ t, exec (.ldI nnn) s = .next t ∧ t = { s with regI := t.regI } ∧ t.regI.toNat = nnn.toNat

/-- CXNN (R143, R106, decision D19): for every byte `r` the tick offers, `V[X]` becomes `r & NN`; nothing else changes. The bytes that
can be offered are exactly 1 to 255, and each of them is an admitted draw. (The byte is the model's free value: log 2.) -/
def Obligations.RndMasksTheOfferedByte : Prop :=
  (∀ r : Draw, 1 ≤ (drawByte r).toNat) ∧ (∀ b : Byte, b ≠ 0 → ∃ r : Draw, drawByte r = b) ∧
  ∀ (s : State) (x : RegIdx) (nn : Byte), decode (0xC#4 ++ regBits x ++ nn) = some (.rnd x nn) ∧
    (∃ t, exec (.rnd x nn) s = .next t ∧ OnlyRegs [x] s t ∧ t.reg x = s.rnd &&& nn) ∧
    ∀ (r : Draw) (rest : List Input) (d : Nat), NextTick s r rest d → s.mode = .run → s.pc.toNat ≤ 4094 →
      decode s.nextWord = some (.rnd x nn) → ∃ t, step s = .next t ∧ t.reg x = drawByte r &&& nn

/-! The ALU family (43_alu.md). -/

/-- 8XY0 to 8XY3 (R151 to R154): copy, OR, AND, XOR, of the old values, to `V[X]`; no flag write, VF not changed unless X is 15. -/
def Obligations.CopyAndLogicWriteTheirResultOnly : Prop :=
  ∀ (s : State) (x y : RegIdx),
    (decode (0x8#4 ++ regBits x ++ regBits y ++ 0x0#4) = some (.ldReg x y) ∧
      decode (0x8#4 ++ regBits x ++ regBits y ++ 0x1#4) = some (.orReg x y) ∧
      decode (0x8#4 ++ regBits x ++ regBits y ++ 0x2#4) = some (.andReg x y) ∧
      decode (0x8#4 ++ regBits x ++ regBits y ++ 0x3#4) = some (.xorReg x y)) ∧
    (∃ t, exec (.ldReg x y) s = .next t ∧ OnlyRegs [x] s t ∧ t.reg x = s.reg y) ∧
    (∃ t, exec (.orReg x y) s = .next t ∧ OnlyRegs [x] s t ∧ t.reg x = s.reg x ||| s.reg y) ∧
    (∃ t, exec (.andReg x y) s = .next t ∧ OnlyRegs [x] s t ∧ t.reg x = s.reg x &&& s.reg y) ∧
    (∃ t, exec (.xorReg x y) s = .next t ∧ OnlyRegs [x] s t ∧ t.reg x = s.reg x ^^^ s.reg y)

/-- 8XY4 (R155): the sum of the old values; `V[X]` gets it, or its high byte when it exceeds 255; the carry to VF, last. -/
def Obligations.AddRegWritesTheHighByteOnCarry : Prop :=
  ∀ (s : State) (x y : RegIdx), decode (0x8#4 ++ regBits x ++ regBits y ++ 0x4#4) = some (.addReg x y) ∧
    ∃ t, exec (.addReg x y) s = .next t ∧ OnlyRegs [x, 15] s t ∧
      (t.reg 15).toNat = (if 255 < (s.reg x).toNat + (s.reg y).toNat then 1 else 0) ∧
      (x ≠ 15 → (t.reg x).toNat = if 255 < (s.reg x).toNat + (s.reg y).toNat
        then ((s.reg x).toNat + (s.reg y).toNat) / 256 else (s.reg x).toNat + (s.reg y).toNat)

/-- 8XY5 (R156): VF gets 1 when V[X] >= V[Y], else 0; then `V[X]` gets the difference modulo 256 of the registers as that write
left them. -/
def Obligations.SubRegWritesNotBorrowThenDifference : Prop :=
  ∀ (s : State) (x y : RegIdx), decode (0x8#4 ++ regBits x ++ regBits y ++ 0x5#4) = some (.subReg x y) ∧
    ∃ t c, exec (.subReg x y) s = .next t ∧ OnlyRegs [x, 15] s t ∧
      c = (if (s.reg y).toNat ≤ (s.reg x).toNat then 1 else 0) ∧ (x ≠ 15 → (t.reg 15).toNat = c) ∧
      (t.reg x).toNat = (afterFlag s c x + 256 - afterFlag s c y) % 256

/-- 8XY6 (R157): VF gets bit 0 of the old V[X]; then `V[X]` gets V[Y] >> 1, V[Y] as that write left it. -/
def Obligations.ShrRegShiftsYIntoX : Prop :=
  ∀ (s : State) (x y : RegIdx), decode (0x8#4 ++ regBits x ++ regBits y ++ 0x6#4) = some (.shrReg x y) ∧
    ∃ t c, exec (.shrReg x y) s = .next t ∧ OnlyRegs [x, 15] s t ∧
      c = (s.reg x).toNat % 2 ∧ (x ≠ 15 → (t.reg 15).toNat = c) ∧ (t.reg x).toNat = afterFlag s c y / 2

/-- 8XY7 (R158): VF gets 0 when V[X] > V[Y], else 1; then `V[X]` gets V[Y] - V[X] modulo 256 of the registers as that write
left them. -/
def Obligations.SubnRegWritesNotBorrowThenReverseDifference : Prop :=
  ∀ (s : State) (x y : RegIdx), decode (0x8#4 ++ regBits x ++ regBits y ++ 0x7#4) = some (.subnReg x y) ∧
    ∃ t c, exec (.subnReg x y) s = .next t ∧ OnlyRegs [x, 15] s t ∧
      c = (if (s.reg y).toNat < (s.reg x).toNat then 0 else 1) ∧ (x ≠ 15 → (t.reg 15).toNat = c) ∧
      (t.reg x).toNat = (afterFlag s c y + 256 - afterFlag s c x) % 256

/-- 8XYE (R159): VF gets bit 7 of V[Y]; then `V[X]` gets V[Y] << 1 modulo 256, V[Y] as that write left it. -/
def Obligations.ShlRegShiftsYIntoX : Prop :=
  ∀ (s : State) (x y : RegIdx), decode (0x8#4 ++ regBits x ++ regBits y ++ 0xE#4) = some (.shlReg x y) ∧
    ∃ t c, exec (.shlReg x y) s = .next t ∧ OnlyRegs [x, 15] s t ∧
      c = (s.reg y).toNat / 128 ∧ (x ≠ 15 → (t.reg 15).toNat = c) ∧ (t.reg x).toNat = afterFlag s c y * 2 % 256

/-- The table "VF aliasing" (R161, an inference of the spec from R150 and R155 to R159), its four columns where a field is VF or the
fields are equal; `f` is the old VF, all differences modulo 256. -/
def Obligations.ResultsWhenAFieldNamesVf : Prop :=
  ∀ (s : State) (x y : RegIdx), x ≠ 15 → y ≠ 15 →
    (Completes (.addReg 15 y) s fun t => (t.reg 15).toNat = if 255 < (s.reg 15).toNat + (s.reg y).toNat then 1 else 0) ∧
    (Completes (.addReg x 15) s fun t => (t.reg 15).toNat = (if 255 < (s.reg x).toNat + (s.reg 15).toNat then 1 else 0) ∧
      (t.reg x).toNat = if 255 < (s.reg x).toNat + (s.reg 15).toNat then 1 else (s.reg x).toNat + (s.reg 15).toNat) ∧
    (Completes (.addReg 15 15) s fun t => (t.reg 15).toNat = if 255 < 2 * (s.reg 15).toNat then 1 else 0) ∧
    (Completes (.addReg x x) s fun t => (t.reg 15).toNat = (if 255 < 2 * (s.reg x).toNat then 1 else 0) ∧
      (t.reg x).toNat = if 255 < 2 * (s.reg x).toNat then 1 else 2 * (s.reg x).toNat) ∧
    (Completes (.subReg 15 y) s fun t => t.reg 15 = (if (s.reg y).toNat ≤ (s.reg 15).toNat then 1 else 0) - s.reg y) ∧
    (Completes (.subReg x 15) s fun t => t.reg 15 = (if (s.reg 15).toNat ≤ (s.reg x).toNat then 1 else 0) ∧
      t.reg x = s.reg x - if (s.reg 15).toNat ≤ (s.reg x).toNat then 1 else 0) ∧
    (Completes (.subReg 15 15) s fun t => t.reg 15 = 0) ∧
    (Completes (.subReg x x) s fun t => t.reg 15 = 1 ∧ t.reg x = 0) ∧
    (Completes (.shrReg 15 y) s fun t => (t.reg 15).toNat = (s.reg y).toNat / 2) ∧
    (Completes (.shrReg x 15) s fun t => (t.reg 15).toNat = (s.reg x).toNat % 2 ∧ t.reg x = 0) ∧
    (Completes (.shrReg 15 15) s fun t => t.reg 15 = 0) ∧
    (Completes (.shrReg x x) s fun t => (t.reg 15).toNat = (s.reg x).toNat % 2 ∧ (t.reg x).toNat = (s.reg x).toNat / 2) ∧
    (Completes (.subnReg 15 y) s fun t => t.reg 15 = s.reg y - if (s.reg y).toNat < (s.reg 15).toNat then 0 else 1) ∧
    (Completes (.subnReg x 15) s fun t => t.reg 15 = (if (s.reg 15).toNat < (s.reg x).toNat then 0 else 1) ∧
      t.reg x = (if (s.reg 15).toNat < (s.reg x).toNat then 0 else 1) - s.reg x) ∧
    (Completes (.subnReg 15 15) s fun t => t.reg 15 = 0) ∧
    (Completes (.subnReg x x) s fun t => t.reg 15 = 1 ∧ t.reg x = 0) ∧
    (Completes (.shlReg 15 y) s fun t => (t.reg 15).toNat = (s.reg y).toNat * 2 % 256) ∧
    (Completes (.shlReg x 15) s fun t => (t.reg 15).toNat = (s.reg 15).toNat / 128 ∧
      (t.reg x).toNat = 2 * ((s.reg 15).toNat / 128)) ∧
    (Completes (.shlReg 15 15) s fun t => (t.reg 15).toNat = 2 * ((s.reg 15).toNat / 128)) ∧
    (Completes (.shlReg x x) s fun t => (t.reg 15).toNat = (s.reg x).toNat / 128 ∧
      (t.reg x).toNat = (s.reg x).toNat * 2 % 256)

/-! The display engine (44_display.md). -/

/-- 00E0 (R170, decision D9): every pixel 0, `should_redraw` 1; nothing else changes, VF included. -/
def Obligations.ClsClearsEveryPixel : Prop :=
  decode 0x00E0 = some .cls ∧ ∀ s : State, ∃ t, exec .cls s = .next t ∧
    t = { s with fb := t.fb, shouldRedraw := true } ∧ ∀ p < 2048, t.pixel p = false

/-- DXYN on every state (R171 to R173, R211, R212, R216; decisions D4, D5, D8): the pixels of the set bits before the first failing
check are toggled, in no other order than the listing's; VF is the collision of those pixels; with no failing check the redraw
flag is set, with one the machine halts with its fault and its info, and the redraw flag keeps its value. Nothing else changes. -/
def Obligations.DrawBlitsUpToTheFirstFailingCheck : Prop :=
  ∀ (s : State) (x y : RegIdx) (n : Nibble),
    decode (0xD#4 ++ regBits x ++ regBits y ++ n) = some (.drw x y n) ∧
    ∃ t, exec (.drw x y n) s = .next t ∧
      (∀ p < 2048, t.pixel p =
        (s.pixel p != decide (p ∈ drawnPixels s (s.reg x).toNat (s.reg y).toNat n.toNat))) ∧
      (t.reg 15 = if ∃ p ∈ drawnPixels s (s.reg x).toNat (s.reg y).toNat n.toNat, s.pixel p = true then 1 else 0) ∧
      (∀ q, q ≠ 15 → t.reg q = s.reg q) ∧
      t = match (drawOrder n.toNat).findSome? (drawFailure s (s.reg x).toNat (s.reg y).toNat) with
        | none => { s with v := t.v, fb := t.fb, shouldRedraw := true }
        | some (f, info) => { s with v := t.v, fb := t.fb, mode := .halted, fault := some f,
                                     outputs := .fault f (some info) :: s.outputs }

/-- DXYN completes where every row is in memory and every set bit on the screen (R171, R174): it toggles each pixel a set bit
addresses and no other, reports a collision exactly when one of them was lit, and sets the redraw flag. `N == 0` is a case:
VF 0, nothing drawn. -/
def Obligations.DrawTogglesWhatItAddresses : Prop :=
  ∀ (s : State) (x y : RegIdx) (n : Nibble), DrawFits s (s.reg x).toNat (s.reg y).toNat n.toNat →
    ∃ t, exec (.drw x y n) s = .next t ∧
      t = { s with v := t.v, fb := t.fb, shouldRedraw := true } ∧ (∀ q, q ≠ 15 → t.reg q = s.reg q) ∧
      (∀ p < 2048, t.pixel p ≠ s.pixel p ↔ Addresses s (s.reg x).toNat (s.reg y).toNat n.toNat p) ∧
      ((∃ p, Addresses s (s.reg x).toNat (s.reg y).toNat n.toNat p ∧ s.pixel p = true) → t.reg 15 = 1) ∧
      ((¬∃ p, Addresses s (s.reg x).toNat (s.reg y).toNat n.toNat p ∧ s.pixel p = true) → t.reg 15 = 0)

/-- DXYN twice (R174, an inference of the spec): with X and Y not 15, the second draw restores the framebuffer and reports a collision
exactly when some addressed pixel was 0 before the first. -/
def Obligations.DrawTwiceRestoresTheFramebuffer : Prop :=
  ∀ (s : State) (x y : RegIdx) (n : Nibble), x ≠ 15 → y ≠ 15 → DrawFits s (s.reg x).toNat (s.reg y).toNat n.toNat →
    ∃ t u, exec (.drw x y n) s = .next t ∧ exec (.drw x y n) t = .next u ∧ u.fb = s.fb ∧
      (u.reg 15 = 1 ↔ ∃ p, Addresses s (s.reg x).toNat (s.reg y).toNat n.toNat p ∧ s.pixel p = false)

/-- PRESENT (R248): with `should_redraw` 1 and outside `HALTED`, the sink receives the framebuffer and the flag is cleared; otherwise
nothing happens. -/
def Obligations.PresentShowsTheFrameAndClearsTheFlag : Prop :=
  ∀ (s : State) (rest : List Input), s.inputs = .present :: rest →
    (s.mode ≠ .halted ∧ s.shouldRedraw = true →
      step s = .next { s with inputs := rest, shouldRedraw := false, outputs := .frame s.fb :: s.outputs }) ∧
    (s.mode = .halted ∨ s.shouldRedraw = false → step s = .next { s with inputs := rest })

/-! Keypad and timers (45_keypad_timer.md). -/

/-- EX9E and EXA1 (R190, R191, decision D7): with `V[X]` at most 15, `PC` moves over one more word when the key is down, or when it is
not; above 15, `KeyBounds` with the value as its info, before any write. -/
def Obligations.KeySkipsFollowTheKeyLevel : Prop :=
  ∀ (s : State) (x : RegIdx),
    decode (0xE#4 ++ regBits x ++ 0x9E#8) = some (.skp x) ∧ decode (0xE#4 ++ regBits x ++ 0xA1#8) = some (.sknp x) ∧
    (∀ h : (s.reg x).toNat < 16,
      (∃ t, exec (.skp x) s = .next t ∧ OnlyPc s t ∧
        t.pc = if s.keypad[(s.reg x).toNat] = true then s.pc + 2 else s.pc) ∧
      (∃ t, exec (.sknp x) s = .next t ∧ OnlyPc s t ∧
        t.pc = if s.keypad[(s.reg x).toNat] = true then s.pc else s.pc + 2)) ∧
    (15 < (s.reg x).toNat → ∀ i ∈ [Instr.skp x, Instr.sknp x], exec i s = .next { s with
      fault := some .keyBounds, mode := .halted, outputs := .fault .keyBounds (some (s.reg x).toNat) :: s.outputs })

/-- FX07 (R192): `V[X]` becomes DT and nothing else changes; in a tick on it the value is DT before that tick's timer step. -/
def Obligations.LdDtReadsTheDelayTimer : Prop :=
  ∀ (s : State) (x : RegIdx), decode (0xF#4 ++ regBits x ++ 0x07#8) = some (.ldDt x) ∧
    (∃ t, exec (.ldDt x) s = .next t ∧ OnlyRegs [x] s t ∧ t.reg x = s.dt) ∧
    ∀ (r : Draw) (rest : List Input) (d : Nat), NextTick s r rest d → s.mode = .run → s.pc.toNat ≤ 4094 →
      decode s.nextWord = some (.ldDt x) → ∃ t, step s = .next t ∧ t.reg x = s.dt ∧ t.dt.toNat = s.dt.toNat - 1

/-- FX0A, first half (R193, decision D13): the destination is remembered and the machine waits; nothing else changes. -/
def Obligations.LdKeyBeginsAKeyWait : Prop :=
  ∀ (s : State) (x : RegIdx), decode (0xF#4 ++ regBits x ++ 0x0A#8) = some (.ldKey x) ∧
    exec (.ldKey x) s = .next { s with waitX := x, mode := .waitKey }

/-- A tick that fetches an FX0A in `RUN` ends in `WAIT_KEY` with `PC` past the word and no timer step; a KEY_DOWN(k) that comes next
puts `k` into `V[X]` and goes on in `RUN` with the tick's one timer step (R193, decision D13). -/
def Obligations.KeyWaitDeliversTheFirstKey : Prop :=
  ∀ (s : State) (r : Draw) (k : Key) (rest : List Input) (d : Nat) (x : RegIdx),
    NextTick s r (.keyDown k :: rest) d → s.mode = .run → s.pc.toNat ≤ 4094 → decode s.nextWord = some (.ldKey x) →
    ∃ t u, step s = .next t ∧ t.mode = .waitKey ∧ t.waitX = x ∧ t.pc.toNat = s.pc.toNat + 2 ∧ t.dt = s.dt ∧ t.st = s.st ∧
      t.v = s.v ∧ step t = .next u ∧
      u = { t with inputs := rest, mode := .run, v := u.v, keypad := u.keypad, dt := u.dt, st := u.st } ∧
      (u.reg x).toNat = k.val ∧ (∀ q, q ≠ x → u.reg q = s.reg q) ∧
      (∀ j : Key, u.keypad[j.val] = (s.keypad[j.val] || decide (j = k))) ∧
      u.dt.toNat = s.dt.toNat - 1 ∧ u.st.toNat = s.st.toNat - 1

/-- KEY_DOWN and KEY_UP (R194, R193, decision D21): the key's level, and nothing else, in `RUN`; KEY_UP so in `WAIT_KEY` too, where
KEY_DOWN also delivers the key, whether or not it was down, and makes one timer step; both nothing in `HALTED`. -/
def Obligations.KeyEventsWriteTheKeypad : Prop :=
  ∀ (s : State) (k : Key) (rest : List Input),
    (s.mode ≠ .halted → s.inputs = .keyUp k :: rest → ∃ t, step s = .next t ∧
      t = { s with inputs := rest, keypad := t.keypad } ∧
      ∀ j : Key, t.keypad[j.val] = (s.keypad[j.val] && decide (j ≠ k))) ∧
    (s.mode = .run → s.inputs = .keyDown k :: rest → ∃ t, step s = .next t ∧
      t = { s with inputs := rest, keypad := t.keypad } ∧
      ∀ j : Key, t.keypad[j.val] = (s.keypad[j.val] || decide (j = k))) ∧
    (s.mode = .waitKey → s.inputs = .keyDown k :: rest → ∃ t, step s = .next t ∧
      t = { s with inputs := rest, mode := .run, v := t.v, keypad := t.keypad, dt := t.dt, st := t.st } ∧
      (∀ j : Key, t.keypad[j.val] = (s.keypad[j.val] || decide (j = k))) ∧
      (t.reg s.waitX).toNat = k.val ∧ (∀ q, q ≠ s.waitX → t.reg q = s.reg q) ∧
      t.dt.toNat = s.dt.toNat - 1 ∧ t.st.toNat = s.st.toNat - 1) ∧
    (s.mode = .halted → (s.inputs = .keyUp k :: rest ∨ s.inputs = .keyDown k :: rest) →
      step s = .next { s with inputs := rest })

/-! Faults (60_exceptions.md). -/

/-- The fault sequence (R211, decision D18): it writes `fault` and `mode` and offers the fault to the host, and nothing else, and the
rest of the tick, its timer step included, is abandoned; from then on every event but RESET changes nothing. -/
def Obligations.FaultSequenceHaltsUntilReset : Prop :=
  (∀ (f : Fault) (info : Option Nat) (s : State),
    raise f info s = .next { s with fault := some f, mode := .halted, outputs := .fault f info :: s.outputs } ∧
    finishTick (raise f info s) = raise f info s) ∧
  ∀ s : State, s.mode = .halted →
    (s.inputs = [] → step s = .next s) ∧
    (∀ e rest, s.inputs = e :: rest → e ≠ .reset → step s = .next { s with inputs := rest }) ∧
    (∀ rest, s.inputs = .reset :: rest → ∃ t, step s = .next t ∧ t.mode = .run ∧ t.fault = none)

/-- Every instruction answers a next state, in every state: arithmetic, an odd or large target, any register index never stop the
machine, and a fault is a next state too (R210, R211, R214; the fault sequence as a next state: log 3). -/
def Obligations.EveryInstructionAnswersANextState : Prop := ∀ (i : Instr) (s : State), ∃ t, exec i s = .next t

/-- The faults of the table "Faults" that an instruction other than DXYN raises, exactly under its conditions, with the code and the
info of the table, and the state otherwise as before (R210, R212). -/
def Obligations.InstructionsFaultExactlyAsTheTableLists : Prop :=
  ∀ (i : Instr) (s t : State), s.mode = .run → (∀ x y n, i ≠ .drw x y n) → exec i s = .next t →
    match faultOf s i with
    | some (f, info) => t = { s with fault := some f, mode := .halted, outputs := .fault f info :: s.outputs }
    | none => t.mode ≠ .halted ∧ t.fault = s.fault ∧ t.outputs = s.outputs

/-- A step never ends in `Outcome.fault`: the fault sequence (R211) is taken as a next state, which is the model's choice (log 3). It
is refused only when the host breaks its duty and issues a LOAD after the first TICK (R42, R244; the refusal is the model's
choice: log 5), and not in `HALTED`, where R211 has a LOAD change nothing. -/
def Obligations.OnlyALateLoadIsRefused : Prop :=
  ∀ s : State, (∀ f, step s ≠ .fault f) ∧
    ((∃ r, step s = .refused r) ↔ s.started = true ∧ s.mode ≠ .halted ∧ ∃ a b, s.inputs.head? = some (.load a b))

/-! Who writes what (10_state.md). -/

/-- The table "Writers" (R46, an inference of the spec), row by row, for all 27 instructions: what each leaves unchanged. Memory and
the fields of the model's own always; the fault code, the mode and the record of outputs unless the fault sequence runs, which
writes all three, and but for the mode that FX0A writes. -/
def Obligations.InstructionsWriteOnlyWhatTheWritersTableLists : Prop :=
  ∀ (i : Instr) (s t : State), exec i s = .next t →
    (∀ r, destReg i ≠ some r → ¬(writesFlag i = true ∧ r = 15) → t.reg r = s.reg r) ∧
    ((∀ nnn, i ≠ .ldI nnn) → t.regI = s.regI) ∧
    (writesPc i = false → t.pc = s.pc) ∧
    (touchesStack i = false → t.sp = s.sp ∧ t.stack = s.stack) ∧
    (t.dt = s.dt ∧ t.st = s.st ∧ t.keypad = s.keypad) ∧
    (drawsScreen i = false → t.fb = s.fb ∧ t.shouldRedraw = s.shouldRedraw) ∧
    ((∀ x, i ≠ .ldKey x) → t.waitX = s.waitX) ∧
    t.mem = s.mem ∧
    ((t.fault = s.fault ∧ t.outputs = s.outputs ∧ (t.mode = s.mode ∨ t.mode = .waitKey ∧ ∃ x, i = .ldKey x)) ∨
      ∃ f info, t.fault = some f ∧ t.mode = .halted ∧ t.outputs = .fault f info :: s.outputs) ∧
    (t.rnd = s.rnd ∧ t.draws = s.draws ∧ t.started = s.started ∧ t.inputs = s.inputs)

/-- No instruction writes main memory: every byte reads the same after any of the 27 (R67, an inference of the spec). -/
def Obligations.NoInstructionWritesMemory : Prop :=
  ∀ (i : Instr) (s t : State), exec i s = .next t → SameMemory s t

/-- After the first TICK main memory is constant until the next RESET (R67, an inference of the spec; R42, log 5). -/
def Obligations.MemoryIsConstantAfterTheFirstTick : Prop :=
  ∀ s t : State, s.started = true → s.inputs.head? ≠ some .reset → step s = .next t → t.mem = s.mem ∧ t.started = true

/-- Outside agents and their fields, both ways (R44, R46). Each event writes its agent's field alone: KEY_UP, and KEY_DOWN outside a
key wait, the keypad; PRESENT the redraw flag, and shows the frame; LOAD memory. A KEY_DOWN in `WAIT_KEY` also ends the wait, which
is the second half of FX0A (R193): the waiting register, the mode and one timer step. The other way: the keypad changes only by a
key event or RESET; memory only by LOAD or RESET; the redraw flag goes to 0 only by PRESENT or RESET and to 1 only in a TICK
in `RUN` (R24). -/
def Obligations.OutsideAgentsWriteOnlyTheirFields : Prop :=
  ∀ s t : State, step s = .next t →
    ((∀ k rest, s.inputs = .keyUp k :: rest → t = { s with inputs := rest, keypad := t.keypad }) ∧
      (∀ k rest, s.inputs = .keyDown k :: rest → s.mode ≠ .waitKey → t = { s with inputs := rest, keypad := t.keypad }) ∧
      (∀ k rest, s.inputs = .keyDown k :: rest → s.mode = .waitKey →
        t = { s with inputs := rest, keypad := t.keypad, mode := t.mode, v := t.v, dt := t.dt, st := t.st } ∧
          ∀ q, q ≠ s.waitX → t.reg q = s.reg q) ∧
      (∀ rest, s.inputs = .present :: rest →
        t = { s with inputs := rest, shouldRedraw := t.shouldRedraw, outputs := t.outputs }) ∧
      ∀ a b rest, s.inputs = .load a b :: rest → t = { s with inputs := rest, mem := t.mem }) ∧
    (t.keypad ≠ s.keypad → s.inputs.head? = some .reset ∨
      ∃ k, s.inputs.head? = some (.keyDown k) ∨ s.inputs.head? = some (.keyUp k)) ∧
    (t.mem ≠ s.mem → s.inputs.head? = some .reset ∨ ∃ a b, s.inputs.head? = some (.load a b)) ∧
    (s.shouldRedraw = true → t.shouldRedraw = false →
      s.inputs.head? = some .reset ∨ s.inputs.head? = some .present) ∧
    (s.shouldRedraw = false → t.shouldRedraw = true → TickIsNext s ∧ s.mode = .run)

/-- What instructions do not read (R24, R30, R32, R38, R41, R102): ST and `should_redraw` none; `I` none but DXYN; DT none but FX07; the
keypad none but EX9E and EXA1; the random byte none but CXNN. Changing such a field before an instruction changes nothing after
it but that field. -/
def Obligations.InstructionsDoNotReadHiddenState : Prop :=
  ∀ (i : Instr) (s t : State), exec i s = .next t →
    (∀ a, exec i { s with st := a } = .next { t with st := a }) ∧
    (∀ b, exec i { s with shouldRedraw := b } = .next { t with shouldRedraw := b } ∨
      drawsScreen i = true ∧ exec i { s with shouldRedraw := b } = .next t) ∧
    ((∀ x y n, i ≠ .drw x y n) → (∀ nnn, i ≠ .ldI nnn) → ∀ a, exec i { s with regI := a } = .next { t with regI := a }) ∧
    ((∀ x, i ≠ .ldDt x) → ∀ a, exec i { s with dt := a } = .next { t with dt := a }) ∧
    ((∀ x, i ≠ .skp x ∧ i ≠ .sknp x) → ∀ a, exec i { s with keypad := a } = .next { t with keypad := a }) ∧
    ((∀ x nn, i ≠ .rnd x nn) → ∀ a, exec i { s with rnd := a } = .next { t with rnd := a })

/-! Reset, boot, end of a run, invariants (70_reset_and_hazards.md). -/

/-- After RESET, from any state and in any mode, every piece of state of the table "Reset values" has the table's value, and so it
has in `State.reset` (R45, R240; the rows `mode`, `fault`, `wait_x` by decision D2). The events still to come are no state of the
core and stay (log 9). -/
def Obligations.ResetGivesEveryFieldItsValue : Prop :=
  HasResetValues State.reset ∧
    ∀ (s : State) (rest : List Input), s.inputs = .reset :: rest →
      ∃ t, step s = .next t ∧ t.inputs = rest ∧ HasResetValues t

/-- LOAD before the first TICK writes its byte and nothing else (R42, R67, R243; decision D23). -/
def Obligations.LoadWritesOneByteBeforeTheFirstTick : Prop :=
  ∀ (s : State) (a : Fin 4096) (b : Byte) (rest : List Input),
    s.inputs = .load a b :: rest → s.started = false → s.mode ≠ .halted → s.mem.wf = true →
    ∃ t, step s = .next t ∧ t = { s with inputs := rest, mem := t.mem } ∧ t.mem.wf = true ∧
      ∀ c, t.mem.read c = if c = a.val then b else s.mem.read c

/-- The boot sequence, for every font and every image of at most 3584 bytes, leads from reset to the booted state of R249, with memory
as its rule lists it; a larger image gives no boot (R241 to R243, R249). -/
def Obligations.BootLeadsToTheBootedState : Prop :=
  ∀ (font : Vector Byte 80) (image : List Byte),
    (image.length ≤ 3584 → ∃ ins t, bootInputs font image = some ins ∧
      Host.Core.run Sys2Proof.core ins.length { State.reset with inputs := ins } = .next t ∧
      t = { State.reset with mem := t.mem } ∧ t = State.booted font image ∧ t.mem.wf = true ∧
      ∀ a, t.mem.read a = if a < 80 then font.toList.getD a 0
        else if 512 ≤ a ∧ a < 512 + image.length then image.getD (a - 512) 0 else 0) ∧
    (3584 < image.length → bootInputs font image = none)

/-- Font installation (R242) as the LOAD events it is, run before the first TICK: the 80 events from `LOAD(0, FONT[0])` to
`LOAD(79, FONT[79])`, and the same events once more, lead to one state, in which bytes 0 to 79 read `FONT`, every other byte reads
as before, memory has its canonical form and nothing else has changed. -/
def Obligations.FontInstallIsIdempotent : Prop :=
  ∀ (font : Vector Byte 80) (s : State) (rest : List Input),
    s.started = false → s.mode ≠ .halted → s.mem.wf = true →
    ∃ t, Host.Core.run Sys2Proof.core 80 { s with inputs := fontInputs font ++ rest } = .next t ∧
      Host.Core.run Sys2Proof.core 160 { s with inputs := fontInputs font ++ (fontInputs font ++ rest) } = .next t ∧
      t = { s with inputs := rest, mem := t.mem } ∧ t.mem.wf = true ∧
      (∀ a : Fin 80, t.mem.read a.val = font[a.val]) ∧ ∀ a, 80 ≤ a → t.mem.read a = s.mem.read a

/-- In a settled state a further TICK changes only the timers, counted down, and the state is settled again (R245, decision D22). -/
def Obligations.SettledStatesStaySettled : Prop :=
  ∀ (s : State) (r : Draw) (rest : List Input) (d : Nat), s.settled = true → NextTick s r rest d →
    ∃ t, step s = .next t ∧
      t = { s with inputs := rest, draws := d, rnd := drawByte r, started := true, dt := t.dt, st := t.st } ∧
      t.dt.toNat = s.dt.toNat - 1 ∧ t.st.toNat = s.st.toNat - 1 ∧ t.settled = true

/-- The reset state and every booted state satisfy the invariants of R250. -/
def Obligations.BootedStatesSatisfyTheInvariants : Prop :=
  Inv State.reset ∧ ∀ (font : Vector Byte 80) (image : List Byte), image.length ≤ 3584 → Inv (State.booted font image)

/-- Every step, whatever event it takes, keeps the invariants of R250: timers 0, `I` at most 0x0FFF, `PC` at most 0x10FE, the call
stack's shape, a fault code exactly in `HALTED`, and memory in canonical form (R28, R30, R32, R34, R37, R250; inferences of the
spec). -/
def Obligations.EveryStepKeepsTheInvariants : Prop := ∀ s t : State, Inv s → step s = .next t → Inv t

/-- The parts of the invariant that do not rest on reset: from ANY state in canonical memory and with a fault code exactly in `HALTED`,
a step keeps both (R34, R250 f; the canonical form is the model's own: log 13). -/
def Obligations.EveryStepKeepsMemoryAndControlForm : Prop :=
  ∀ s t : State, s.mem.wf = true ∧ ControlInv s → step s = .next t → t.mem.wf = true ∧ ControlInv t
end

