-- ==== Sys2Proof/Laws/Memory.lean ====
section
/-! SUPPORT. Main memory: reading after writing, and that writing keeps the canonical form. -/

namespace Sys2Proof.Machine

@[simp] theorem Memory.read_nil (a : Nat) : Memory.read [] a = 0 := rfl

theorem Memory.wf_cons {a : Nat} {b : Byte} {m : Memory} :
    Memory.wf ((a, b) :: m) = true ↔
      b ≠ 0 ∧ a < 4096 ∧ (∀ c ∈ m, a < c.1) ∧ Memory.wf m = true := by
  induction m generalizing a b with
  | nil => simp [Memory.wf]
  | cons c m ih =>
    obtain ⟨a', b'⟩ := c
    constructor
    · intro h
      simp only [Memory.wf, Bool.and_eq_true, bne_iff_ne, decide_eq_true_eq] at h
      obtain ⟨⟨hb, ha⟩, hm⟩ := h
      obtain ⟨-, h4096, hrest, -⟩ := ih.1 hm
      refine ⟨hb, by omega, ?_, hm⟩
      rintro c hc
      rcases List.mem_cons.1 hc with rfl | hc
      · exact ha
      · exact Nat.lt_trans ha (hrest c hc)
    · rintro ⟨hb, -, hrest, hm⟩
      simp only [Memory.wf, Bool.and_eq_true, bne_iff_ne, decide_eq_true_eq]
      exact ⟨⟨hb, hrest (a', b') (List.mem_cons_self ..)⟩, hm⟩

/-- An address below every listed one reads 0. -/
theorem Memory.read_of_lt {m : Memory} {a : Nat} (h : ∀ c ∈ m, a < c.1) : m.read a = 0 := by
  induction m with
  | nil => rfl
  | cons c m ih =>
    obtain ⟨a', b'⟩ := c
    have h1 : a < a' := h (a', b') (List.mem_cons_self ..)
    rw [Memory.read, if_neg (by omega), ih fun c hc => h c (List.mem_cons_of_mem _ hc)]

/-- Every address a write lists was listed or is the one written. -/
theorem Memory.mem_write {m : Memory} {a : Nat} {b : Byte} {c : Nat × Byte} (h : c ∈ m.write a b) :
    c ∈ m ∨ c.1 = a := by
  induction m with
  | nil =>
    rw [Memory.write] at h
    split at h
    · simp at h
    · exact .inr (by simp_all)
  | cons d m ih =>
    obtain ⟨a', b'⟩ := d
    rw [Memory.write] at h
    split_ifs at h <;> simp only [List.mem_cons] at h ⊢
    · exact .inl h
    · rcases h with rfl | h
      · exact .inr rfl
      · exact .inl h
    · exact .inl (.inr h)
    · rcases h with rfl | h
      · exact .inr rfl
      · exact .inl (.inr h)
    · rcases h with h | h
      · exact .inl (.inl h)
      · exact (ih h).imp .inr id

/-- Writing inside memory keeps the canonical form. -/
theorem Memory.wf_write {m : Memory} {a : Nat} {b : Byte} (hm : m.wf = true) (ha : a < 4096) :
    (m.write a b).wf = true := by
  induction m with
  | nil =>
    rw [Memory.write]
    split
    · rfl
    · exact Memory.wf_cons.2 ⟨‹_›, ha, by simp, rfl⟩
  | cons c m ih =>
    obtain ⟨a', b'⟩ := c
    obtain ⟨hb', ha', hrest, hm'⟩ := Memory.wf_cons.1 hm
    rw [Memory.write]
    split_ifs with h1 h2 h2 h3
    · exact hm
    · refine Memory.wf_cons.2 ⟨h2, ha, ?_, hm⟩
      rintro c hc
      rcases List.mem_cons.1 hc with rfl | hc
      · exact h1
      · exact Nat.lt_trans h1 (hrest c hc)
    · exact hm'
    · exact Memory.wf_cons.2 ⟨h3, ha, fun c hc => by have := hrest c hc; omega, hm'⟩
    · refine Memory.wf_cons.2 ⟨hb', ha', fun c hc => ?_, ih hm'⟩
      rcases Memory.mem_write hc with hc | hc
      · exact hrest c hc
      · omega

/-- A byte read after a write is the byte written, or what was there. -/
theorem Memory.read_write {m : Memory} {a : Nat} {b : Byte} (hm : m.wf = true) (c : Nat) :
    (m.write a b).read c = if c = a then b else m.read c := by
  induction m with
  | nil =>
    rw [Memory.write]
    split_ifs with h1 h2 h2
    · simp [h1]
    · rfl
    · simp [Memory.read, h2]
    · simp [Memory.read, Ne.symm h2]
  | cons d m ih =>
    obtain ⟨a', b'⟩ := d
    obtain ⟨hb', -, hrest, hm'⟩ := Memory.wf_cons.1 hm
    have below : a < a' → Memory.read ((a', b') :: m) a = 0 := fun h =>
      Memory.read_of_lt fun c hc => by
        rcases List.mem_cons.1 hc with rfl | hc
        · exact h
        · exact Nat.lt_trans h (hrest c hc)
    have above : Memory.read m a' = 0 := Memory.read_of_lt hrest
    rw [Memory.write]
    split_ifs with h1 h2 <;> simp_all [Memory.read]
    all_goals grind

/-- Two canonical memories that read the same are the same. -/
theorem Memory.ext_read {m m' : Memory} (hm : m.wf = true) (hm' : m'.wf = true)
    (h : ∀ a, m.read a = m'.read a) : m = m' := by
  induction m generalizing m' with
  | nil =>
    cases m' with
    | nil => rfl
    | cons c m' =>
      obtain ⟨a, b⟩ := c
      obtain ⟨hb, -⟩ := Memory.wf_cons.1 hm'
      have := h a
      simp [Memory.read] at this
      exact absurd this.symm hb
  | cons c m ih =>
    obtain ⟨a, b⟩ := c
    obtain ⟨hb, -, hrest, hwf⟩ := Memory.wf_cons.1 hm
    cases m' with
    | nil =>
      have := h a
      simp [Memory.read] at this
      exact absurd this hb
    | cons c' m' =>
      obtain ⟨a', b'⟩ := c'
      obtain ⟨hb', -, hrest', hwf'⟩ := Memory.wf_cons.1 hm'
      have haa : a = a' := by
        rcases Nat.lt_trichotomy a a' with hlt | heq | hgt
        · have h1 := h a
          rw [Memory.read, if_pos rfl, Memory.read_of_lt (m := (a', b') :: m') fun c hc => by
            rcases List.mem_cons.1 hc with rfl | hc
            · exact hlt
            · exact Nat.lt_trans hlt (hrest' c hc)] at h1
          exact absurd h1 hb
        · exact heq
        · have h1 := h a'
          rw [Memory.read_of_lt (m := (a, b) :: m) fun c hc => by
            rcases List.mem_cons.1 hc with rfl | hc
            · exact hgt
            · exact Nat.lt_trans hgt (hrest c hc), Memory.read, if_pos rfl] at h1
          exact absurd h1.symm hb'
      subst haa
      have hbb : b = b' := by
        have := h a
        simpa [Memory.read] using this
      subst hbb
      congr 1
      refine ih hwf hwf' fun x => ?_
      have hx := h x
      rw [Memory.read, Memory.read] at hx
      by_cases hxa : a = x
      · subst hxa
        rw [Memory.read_of_lt hrest, Memory.read_of_lt hrest']
      · rwa [if_neg hxa, if_neg hxa] at hx

/-- Writing consecutive bytes inside memory keeps the canonical form. -/
theorem Memory.wf_writeBytes {m : Memory} {base : Nat} {bs : List Byte} (hm : m.wf = true)
    (h : base + bs.length ≤ 4096) : (m.writeBytes base bs).wf = true := by
  induction bs generalizing m base with
  | nil => exact hm
  | cons b bs ih =>
    rw [List.length_cons] at h
    exact ih (Memory.wf_write hm (by omega)) (by omega)

/-- Reading after writing consecutive bytes. -/
theorem Memory.read_writeBytes {m : Memory} {base : Nat} {bs : List Byte} (hm : m.wf = true)
    (h : base + bs.length ≤ 4096) (c : Nat) :
    (m.writeBytes base bs).read c =
      if base ≤ c ∧ c < base + bs.length then bs.getD (c - base) 0 else m.read c := by
  induction bs generalizing m base with
  | nil => simp [Memory.writeBytes]
  | cons b bs ih =>
    rw [List.length_cons] at h
    rw [Memory.writeBytes, ih (Memory.wf_write hm (by omega)) (by omega), Memory.read_write hm, List.length_cons]
    by_cases h1 : c = base
    · subst h1; simp
    · by_cases h2 : base + 1 ≤ c ∧ c < base + 1 + bs.length
      · rw [if_pos h2, if_pos (by omega)]
        obtain ⟨k, rfl⟩ : ∃ k, c = base + 1 + k := ⟨c - (base + 1), by omega⟩
        rw [show base + 1 + k - base = k + 1 by omega, show base + 1 + k - (base + 1) = k by omega]
        rfl
      · rw [if_neg h2, if_neg h1, if_neg (by omega)]

end Sys2Proof.Machine
end

