-- ==== Sys2Proof/Laws/State.lean ====
section
/-! SUPPORT. Each field after each update of the state: one lemma per field per update, so that no proof unfolds an update. -/

namespace Sys2Proof.Machine

variable (s : State)

@[simp] theorem State.setReg_v (x : RegIdx) (b : Byte) : (s.setReg x b).v = s.v.set x.val b := rfl
@[simp] theorem State.setReg_regI (x : RegIdx) (b : Byte) : (s.setReg x b).regI = s.regI := rfl
@[simp] theorem State.setReg_pc (x : RegIdx) (b : Byte) : (s.setReg x b).pc = s.pc := rfl
@[simp] theorem State.setReg_sp (x : RegIdx) (b : Byte) : (s.setReg x b).sp = s.sp := rfl
@[simp] theorem State.setReg_stack (x : RegIdx) (b : Byte) : (s.setReg x b).stack = s.stack := rfl
@[simp] theorem State.setReg_dt (x : RegIdx) (b : Byte) : (s.setReg x b).dt = s.dt := rfl
@[simp] theorem State.setReg_st (x : RegIdx) (b : Byte) : (s.setReg x b).st = s.st := rfl
@[simp] theorem State.setReg_mem (x : RegIdx) (b : Byte) : (s.setReg x b).mem = s.mem := rfl
@[simp] theorem State.setReg_fb (x : RegIdx) (b : Byte) : (s.setReg x b).fb = s.fb := rfl
@[simp] theorem State.setReg_keypad (x : RegIdx) (b : Byte) : (s.setReg x b).keypad = s.keypad := rfl
@[simp] theorem State.setReg_shouldRedraw (x : RegIdx) (b : Byte) : (s.setReg x b).shouldRedraw = s.shouldRedraw := rfl
@[simp] theorem State.setReg_mode (x : RegIdx) (b : Byte) : (s.setReg x b).mode = s.mode := rfl
@[simp] theorem State.setReg_fault (x : RegIdx) (b : Byte) : (s.setReg x b).fault = s.fault := rfl
@[simp] theorem State.setReg_waitX (x : RegIdx) (b : Byte) : (s.setReg x b).waitX = s.waitX := rfl
@[simp] theorem State.setReg_rnd (x : RegIdx) (b : Byte) : (s.setReg x b).rnd = s.rnd := rfl
@[simp] theorem State.setReg_draws (x : RegIdx) (b : Byte) : (s.setReg x b).draws = s.draws := rfl
@[simp] theorem State.setReg_started (x : RegIdx) (b : Byte) : (s.setReg x b).started = s.started := rfl
@[simp] theorem State.setReg_inputs (x : RegIdx) (b : Byte) : (s.setReg x b).inputs = s.inputs := rfl
@[simp] theorem State.setReg_outputs (x : RegIdx) (b : Byte) : (s.setReg x b).outputs = s.outputs := rfl

@[simp] theorem State.setI_v (a : Word) : (s.setI a).v = s.v := rfl
@[simp] theorem State.setI_regI (a : Word) : (s.setI a).regI = a := rfl
@[simp] theorem State.setI_pc (a : Word) : (s.setI a).pc = s.pc := rfl
@[simp] theorem State.setI_sp (a : Word) : (s.setI a).sp = s.sp := rfl
@[simp] theorem State.setI_stack (a : Word) : (s.setI a).stack = s.stack := rfl
@[simp] theorem State.setI_dt (a : Word) : (s.setI a).dt = s.dt := rfl
@[simp] theorem State.setI_st (a : Word) : (s.setI a).st = s.st := rfl
@[simp] theorem State.setI_mem (a : Word) : (s.setI a).mem = s.mem := rfl
@[simp] theorem State.setI_fb (a : Word) : (s.setI a).fb = s.fb := rfl
@[simp] theorem State.setI_keypad (a : Word) : (s.setI a).keypad = s.keypad := rfl
@[simp] theorem State.setI_shouldRedraw (a : Word) : (s.setI a).shouldRedraw = s.shouldRedraw := rfl
@[simp] theorem State.setI_mode (a : Word) : (s.setI a).mode = s.mode := rfl
@[simp] theorem State.setI_fault (a : Word) : (s.setI a).fault = s.fault := rfl
@[simp] theorem State.setI_waitX (a : Word) : (s.setI a).waitX = s.waitX := rfl
@[simp] theorem State.setI_rnd (a : Word) : (s.setI a).rnd = s.rnd := rfl
@[simp] theorem State.setI_draws (a : Word) : (s.setI a).draws = s.draws := rfl
@[simp] theorem State.setI_started (a : Word) : (s.setI a).started = s.started := rfl
@[simp] theorem State.setI_inputs (a : Word) : (s.setI a).inputs = s.inputs := rfl
@[simp] theorem State.setI_outputs (a : Word) : (s.setI a).outputs = s.outputs := rfl

@[simp] theorem State.jump_v (a : Word) : (s.jump a).v = s.v := rfl
@[simp] theorem State.jump_regI (a : Word) : (s.jump a).regI = s.regI := rfl
@[simp] theorem State.jump_pc (a : Word) : (s.jump a).pc = a := rfl
@[simp] theorem State.jump_sp (a : Word) : (s.jump a).sp = s.sp := rfl
@[simp] theorem State.jump_stack (a : Word) : (s.jump a).stack = s.stack := rfl
@[simp] theorem State.jump_dt (a : Word) : (s.jump a).dt = s.dt := rfl
@[simp] theorem State.jump_st (a : Word) : (s.jump a).st = s.st := rfl
@[simp] theorem State.jump_mem (a : Word) : (s.jump a).mem = s.mem := rfl
@[simp] theorem State.jump_fb (a : Word) : (s.jump a).fb = s.fb := rfl
@[simp] theorem State.jump_keypad (a : Word) : (s.jump a).keypad = s.keypad := rfl
@[simp] theorem State.jump_shouldRedraw (a : Word) : (s.jump a).shouldRedraw = s.shouldRedraw := rfl
@[simp] theorem State.jump_mode (a : Word) : (s.jump a).mode = s.mode := rfl
@[simp] theorem State.jump_fault (a : Word) : (s.jump a).fault = s.fault := rfl
@[simp] theorem State.jump_waitX (a : Word) : (s.jump a).waitX = s.waitX := rfl
@[simp] theorem State.jump_rnd (a : Word) : (s.jump a).rnd = s.rnd := rfl
@[simp] theorem State.jump_draws (a : Word) : (s.jump a).draws = s.draws := rfl
@[simp] theorem State.jump_started (a : Word) : (s.jump a).started = s.started := rfl
@[simp] theorem State.jump_inputs (a : Word) : (s.jump a).inputs = s.inputs := rfl
@[simp] theorem State.jump_outputs (a : Word) : (s.jump a).outputs = s.outputs := rfl

@[simp] theorem State.advance_v : (s.advance).v = s.v := rfl
@[simp] theorem State.advance_regI : (s.advance).regI = s.regI := rfl
@[simp] theorem State.advance_pc : (s.advance).pc = s.pc + 2 := rfl
@[simp] theorem State.advance_sp : (s.advance).sp = s.sp := rfl
@[simp] theorem State.advance_stack : (s.advance).stack = s.stack := rfl
@[simp] theorem State.advance_dt : (s.advance).dt = s.dt := rfl
@[simp] theorem State.advance_st : (s.advance).st = s.st := rfl
@[simp] theorem State.advance_mem : (s.advance).mem = s.mem := rfl
@[simp] theorem State.advance_fb : (s.advance).fb = s.fb := rfl
@[simp] theorem State.advance_keypad : (s.advance).keypad = s.keypad := rfl
@[simp] theorem State.advance_shouldRedraw : (s.advance).shouldRedraw = s.shouldRedraw := rfl
@[simp] theorem State.advance_mode : (s.advance).mode = s.mode := rfl
@[simp] theorem State.advance_fault : (s.advance).fault = s.fault := rfl
@[simp] theorem State.advance_waitX : (s.advance).waitX = s.waitX := rfl
@[simp] theorem State.advance_rnd : (s.advance).rnd = s.rnd := rfl
@[simp] theorem State.advance_draws : (s.advance).draws = s.draws := rfl
@[simp] theorem State.advance_started : (s.advance).started = s.started := rfl
@[simp] theorem State.advance_inputs : (s.advance).inputs = s.inputs := rfl
@[simp] theorem State.advance_outputs : (s.advance).outputs = s.outputs := rfl

@[simp] theorem State.memWrite_v (a : Fin 4096) (b : Byte) : (s.memWrite a b).v = s.v := rfl
@[simp] theorem State.memWrite_regI (a : Fin 4096) (b : Byte) : (s.memWrite a b).regI = s.regI := rfl
@[simp] theorem State.memWrite_pc (a : Fin 4096) (b : Byte) : (s.memWrite a b).pc = s.pc := rfl
@[simp] theorem State.memWrite_sp (a : Fin 4096) (b : Byte) : (s.memWrite a b).sp = s.sp := rfl
@[simp] theorem State.memWrite_stack (a : Fin 4096) (b : Byte) : (s.memWrite a b).stack = s.stack := rfl
@[simp] theorem State.memWrite_dt (a : Fin 4096) (b : Byte) : (s.memWrite a b).dt = s.dt := rfl
@[simp] theorem State.memWrite_st (a : Fin 4096) (b : Byte) : (s.memWrite a b).st = s.st := rfl
@[simp] theorem State.memWrite_mem (a : Fin 4096) (b : Byte) : (s.memWrite a b).mem = s.mem.write a.val b := rfl
@[simp] theorem State.memWrite_fb (a : Fin 4096) (b : Byte) : (s.memWrite a b).fb = s.fb := rfl
@[simp] theorem State.memWrite_keypad (a : Fin 4096) (b : Byte) : (s.memWrite a b).keypad = s.keypad := rfl
@[simp] theorem State.memWrite_shouldRedraw (a : Fin 4096) (b : Byte) : (s.memWrite a b).shouldRedraw = s.shouldRedraw := rfl
@[simp] theorem State.memWrite_mode (a : Fin 4096) (b : Byte) : (s.memWrite a b).mode = s.mode := rfl
@[simp] theorem State.memWrite_fault (a : Fin 4096) (b : Byte) : (s.memWrite a b).fault = s.fault := rfl
@[simp] theorem State.memWrite_waitX (a : Fin 4096) (b : Byte) : (s.memWrite a b).waitX = s.waitX := rfl
@[simp] theorem State.memWrite_rnd (a : Fin 4096) (b : Byte) : (s.memWrite a b).rnd = s.rnd := rfl
@[simp] theorem State.memWrite_draws (a : Fin 4096) (b : Byte) : (s.memWrite a b).draws = s.draws := rfl
@[simp] theorem State.memWrite_started (a : Fin 4096) (b : Byte) : (s.memWrite a b).started = s.started := rfl
@[simp] theorem State.memWrite_inputs (a : Fin 4096) (b : Byte) : (s.memWrite a b).inputs = s.inputs := rfl
@[simp] theorem State.memWrite_outputs (a : Fin 4096) (b : Byte) : (s.memWrite a b).outputs = s.outputs := rfl

@[simp] theorem State.togglePixel_v (n : Nat) : (s.togglePixel n).v = s.v := rfl
@[simp] theorem State.togglePixel_regI (n : Nat) : (s.togglePixel n).regI = s.regI := rfl
@[simp] theorem State.togglePixel_pc (n : Nat) : (s.togglePixel n).pc = s.pc := rfl
@[simp] theorem State.togglePixel_sp (n : Nat) : (s.togglePixel n).sp = s.sp := rfl
@[simp] theorem State.togglePixel_stack (n : Nat) : (s.togglePixel n).stack = s.stack := rfl
@[simp] theorem State.togglePixel_dt (n : Nat) : (s.togglePixel n).dt = s.dt := rfl
@[simp] theorem State.togglePixel_st (n : Nat) : (s.togglePixel n).st = s.st := rfl
@[simp] theorem State.togglePixel_mem (n : Nat) : (s.togglePixel n).mem = s.mem := rfl
@[simp] theorem State.togglePixel_fb (n : Nat) : (s.togglePixel n).fb = s.fb ^^^ BitVec.twoPow 2048 n := rfl
@[simp] theorem State.togglePixel_keypad (n : Nat) : (s.togglePixel n).keypad = s.keypad := rfl
@[simp] theorem State.togglePixel_shouldRedraw (n : Nat) : (s.togglePixel n).shouldRedraw = s.shouldRedraw := rfl
@[simp] theorem State.togglePixel_mode (n : Nat) : (s.togglePixel n).mode = s.mode := rfl
@[simp] theorem State.togglePixel_fault (n : Nat) : (s.togglePixel n).fault = s.fault := rfl
@[simp] theorem State.togglePixel_waitX (n : Nat) : (s.togglePixel n).waitX = s.waitX := rfl
@[simp] theorem State.togglePixel_rnd (n : Nat) : (s.togglePixel n).rnd = s.rnd := rfl
@[simp] theorem State.togglePixel_draws (n : Nat) : (s.togglePixel n).draws = s.draws := rfl
@[simp] theorem State.togglePixel_started (n : Nat) : (s.togglePixel n).started = s.started := rfl
@[simp] theorem State.togglePixel_inputs (n : Nat) : (s.togglePixel n).inputs = s.inputs := rfl
@[simp] theorem State.togglePixel_outputs (n : Nat) : (s.togglePixel n).outputs = s.outputs := rfl

@[simp] theorem State.clearScreen_v : (s.clearScreen).v = s.v := rfl
@[simp] theorem State.clearScreen_regI : (s.clearScreen).regI = s.regI := rfl
@[simp] theorem State.clearScreen_pc : (s.clearScreen).pc = s.pc := rfl
@[simp] theorem State.clearScreen_sp : (s.clearScreen).sp = s.sp := rfl
@[simp] theorem State.clearScreen_stack : (s.clearScreen).stack = s.stack := rfl
@[simp] theorem State.clearScreen_dt : (s.clearScreen).dt = s.dt := rfl
@[simp] theorem State.clearScreen_st : (s.clearScreen).st = s.st := rfl
@[simp] theorem State.clearScreen_mem : (s.clearScreen).mem = s.mem := rfl
@[simp] theorem State.clearScreen_fb : (s.clearScreen).fb = 0 := rfl
@[simp] theorem State.clearScreen_keypad : (s.clearScreen).keypad = s.keypad := rfl
@[simp] theorem State.clearScreen_shouldRedraw : (s.clearScreen).shouldRedraw = s.shouldRedraw := rfl
@[simp] theorem State.clearScreen_mode : (s.clearScreen).mode = s.mode := rfl
@[simp] theorem State.clearScreen_fault : (s.clearScreen).fault = s.fault := rfl
@[simp] theorem State.clearScreen_waitX : (s.clearScreen).waitX = s.waitX := rfl
@[simp] theorem State.clearScreen_rnd : (s.clearScreen).rnd = s.rnd := rfl
@[simp] theorem State.clearScreen_draws : (s.clearScreen).draws = s.draws := rfl
@[simp] theorem State.clearScreen_started : (s.clearScreen).started = s.started := rfl
@[simp] theorem State.clearScreen_inputs : (s.clearScreen).inputs = s.inputs := rfl
@[simp] theorem State.clearScreen_outputs : (s.clearScreen).outputs = s.outputs := rfl

@[simp] theorem State.setRedraw_v : (s.setRedraw).v = s.v := rfl
@[simp] theorem State.setRedraw_regI : (s.setRedraw).regI = s.regI := rfl
@[simp] theorem State.setRedraw_pc : (s.setRedraw).pc = s.pc := rfl
@[simp] theorem State.setRedraw_sp : (s.setRedraw).sp = s.sp := rfl
@[simp] theorem State.setRedraw_stack : (s.setRedraw).stack = s.stack := rfl
@[simp] theorem State.setRedraw_dt : (s.setRedraw).dt = s.dt := rfl
@[simp] theorem State.setRedraw_st : (s.setRedraw).st = s.st := rfl
@[simp] theorem State.setRedraw_mem : (s.setRedraw).mem = s.mem := rfl
@[simp] theorem State.setRedraw_fb : (s.setRedraw).fb = s.fb := rfl
@[simp] theorem State.setRedraw_keypad : (s.setRedraw).keypad = s.keypad := rfl
@[simp] theorem State.setRedraw_shouldRedraw : (s.setRedraw).shouldRedraw = true := rfl
@[simp] theorem State.setRedraw_mode : (s.setRedraw).mode = s.mode := rfl
@[simp] theorem State.setRedraw_fault : (s.setRedraw).fault = s.fault := rfl
@[simp] theorem State.setRedraw_waitX : (s.setRedraw).waitX = s.waitX := rfl
@[simp] theorem State.setRedraw_rnd : (s.setRedraw).rnd = s.rnd := rfl
@[simp] theorem State.setRedraw_draws : (s.setRedraw).draws = s.draws := rfl
@[simp] theorem State.setRedraw_started : (s.setRedraw).started = s.started := rfl
@[simp] theorem State.setRedraw_inputs : (s.setRedraw).inputs = s.inputs := rfl
@[simp] theorem State.setRedraw_outputs : (s.setRedraw).outputs = s.outputs := rfl

@[simp] theorem State.setKey_v (k : Key) (d : Bool) : (s.setKey k d).v = s.v := rfl
@[simp] theorem State.setKey_regI (k : Key) (d : Bool) : (s.setKey k d).regI = s.regI := rfl
@[simp] theorem State.setKey_pc (k : Key) (d : Bool) : (s.setKey k d).pc = s.pc := rfl
@[simp] theorem State.setKey_sp (k : Key) (d : Bool) : (s.setKey k d).sp = s.sp := rfl
@[simp] theorem State.setKey_stack (k : Key) (d : Bool) : (s.setKey k d).stack = s.stack := rfl
@[simp] theorem State.setKey_dt (k : Key) (d : Bool) : (s.setKey k d).dt = s.dt := rfl
@[simp] theorem State.setKey_st (k : Key) (d : Bool) : (s.setKey k d).st = s.st := rfl
@[simp] theorem State.setKey_mem (k : Key) (d : Bool) : (s.setKey k d).mem = s.mem := rfl
@[simp] theorem State.setKey_fb (k : Key) (d : Bool) : (s.setKey k d).fb = s.fb := rfl
@[simp] theorem State.setKey_keypad (k : Key) (d : Bool) : (s.setKey k d).keypad = s.keypad.set k.val d := rfl
@[simp] theorem State.setKey_shouldRedraw (k : Key) (d : Bool) : (s.setKey k d).shouldRedraw = s.shouldRedraw := rfl
@[simp] theorem State.setKey_mode (k : Key) (d : Bool) : (s.setKey k d).mode = s.mode := rfl
@[simp] theorem State.setKey_fault (k : Key) (d : Bool) : (s.setKey k d).fault = s.fault := rfl
@[simp] theorem State.setKey_waitX (k : Key) (d : Bool) : (s.setKey k d).waitX = s.waitX := rfl
@[simp] theorem State.setKey_rnd (k : Key) (d : Bool) : (s.setKey k d).rnd = s.rnd := rfl
@[simp] theorem State.setKey_draws (k : Key) (d : Bool) : (s.setKey k d).draws = s.draws := rfl
@[simp] theorem State.setKey_started (k : Key) (d : Bool) : (s.setKey k d).started = s.started := rfl
@[simp] theorem State.setKey_inputs (k : Key) (d : Bool) : (s.setKey k d).inputs = s.inputs := rfl
@[simp] theorem State.setKey_outputs (k : Key) (d : Bool) : (s.setKey k d).outputs = s.outputs := rfl

@[simp] theorem State.beginWait_v (x : RegIdx) : (s.beginWait x).v = s.v := rfl
@[simp] theorem State.beginWait_regI (x : RegIdx) : (s.beginWait x).regI = s.regI := rfl
@[simp] theorem State.beginWait_pc (x : RegIdx) : (s.beginWait x).pc = s.pc := rfl
@[simp] theorem State.beginWait_sp (x : RegIdx) : (s.beginWait x).sp = s.sp := rfl
@[simp] theorem State.beginWait_stack (x : RegIdx) : (s.beginWait x).stack = s.stack := rfl
@[simp] theorem State.beginWait_dt (x : RegIdx) : (s.beginWait x).dt = s.dt := rfl
@[simp] theorem State.beginWait_st (x : RegIdx) : (s.beginWait x).st = s.st := rfl
@[simp] theorem State.beginWait_mem (x : RegIdx) : (s.beginWait x).mem = s.mem := rfl
@[simp] theorem State.beginWait_fb (x : RegIdx) : (s.beginWait x).fb = s.fb := rfl
@[simp] theorem State.beginWait_keypad (x : RegIdx) : (s.beginWait x).keypad = s.keypad := rfl
@[simp] theorem State.beginWait_shouldRedraw (x : RegIdx) : (s.beginWait x).shouldRedraw = s.shouldRedraw := rfl
@[simp] theorem State.beginWait_mode (x : RegIdx) : (s.beginWait x).mode = .waitKey := rfl
@[simp] theorem State.beginWait_fault (x : RegIdx) : (s.beginWait x).fault = s.fault := rfl
@[simp] theorem State.beginWait_waitX (x : RegIdx) : (s.beginWait x).waitX = x := rfl
@[simp] theorem State.beginWait_rnd (x : RegIdx) : (s.beginWait x).rnd = s.rnd := rfl
@[simp] theorem State.beginWait_draws (x : RegIdx) : (s.beginWait x).draws = s.draws := rfl
@[simp] theorem State.beginWait_started (x : RegIdx) : (s.beginWait x).started = s.started := rfl
@[simp] theorem State.beginWait_inputs (x : RegIdx) : (s.beginWait x).inputs = s.inputs := rfl
@[simp] theorem State.beginWait_outputs (x : RegIdx) : (s.beginWait x).outputs = s.outputs := rfl

@[simp] theorem State.timerStep_v : (s.timerStep).v = s.v := rfl
@[simp] theorem State.timerStep_regI : (s.timerStep).regI = s.regI := rfl
@[simp] theorem State.timerStep_pc : (s.timerStep).pc = s.pc := rfl
@[simp] theorem State.timerStep_sp : (s.timerStep).sp = s.sp := rfl
@[simp] theorem State.timerStep_stack : (s.timerStep).stack = s.stack := rfl
@[simp] theorem State.timerStep_dt : (s.timerStep).dt = countDown s.dt := rfl
@[simp] theorem State.timerStep_st : (s.timerStep).st = countDown s.st := rfl
@[simp] theorem State.timerStep_mem : (s.timerStep).mem = s.mem := rfl
@[simp] theorem State.timerStep_fb : (s.timerStep).fb = s.fb := rfl
@[simp] theorem State.timerStep_keypad : (s.timerStep).keypad = s.keypad := rfl
@[simp] theorem State.timerStep_shouldRedraw : (s.timerStep).shouldRedraw = s.shouldRedraw := rfl
@[simp] theorem State.timerStep_mode : (s.timerStep).mode = s.mode := rfl
@[simp] theorem State.timerStep_fault : (s.timerStep).fault = s.fault := rfl
@[simp] theorem State.timerStep_waitX : (s.timerStep).waitX = s.waitX := rfl
@[simp] theorem State.timerStep_rnd : (s.timerStep).rnd = s.rnd := rfl
@[simp] theorem State.timerStep_draws : (s.timerStep).draws = s.draws := rfl
@[simp] theorem State.timerStep_started : (s.timerStep).started = s.started := rfl
@[simp] theorem State.timerStep_inputs : (s.timerStep).inputs = s.inputs := rfl
@[simp] theorem State.timerStep_outputs : (s.timerStep).outputs = s.outputs := rfl

@[simp] theorem State.offer_v (r : Draw) : (s.offer r).v = s.v := rfl
@[simp] theorem State.offer_regI (r : Draw) : (s.offer r).regI = s.regI := rfl
@[simp] theorem State.offer_pc (r : Draw) : (s.offer r).pc = s.pc := rfl
@[simp] theorem State.offer_sp (r : Draw) : (s.offer r).sp = s.sp := rfl
@[simp] theorem State.offer_stack (r : Draw) : (s.offer r).stack = s.stack := rfl
@[simp] theorem State.offer_dt (r : Draw) : (s.offer r).dt = s.dt := rfl
@[simp] theorem State.offer_st (r : Draw) : (s.offer r).st = s.st := rfl
@[simp] theorem State.offer_mem (r : Draw) : (s.offer r).mem = s.mem := rfl
@[simp] theorem State.offer_fb (r : Draw) : (s.offer r).fb = s.fb := rfl
@[simp] theorem State.offer_keypad (r : Draw) : (s.offer r).keypad = s.keypad := rfl
@[simp] theorem State.offer_shouldRedraw (r : Draw) : (s.offer r).shouldRedraw = s.shouldRedraw := rfl
@[simp] theorem State.offer_mode (r : Draw) : (s.offer r).mode = s.mode := rfl
@[simp] theorem State.offer_fault (r : Draw) : (s.offer r).fault = s.fault := rfl
@[simp] theorem State.offer_waitX (r : Draw) : (s.offer r).waitX = s.waitX := rfl
@[simp] theorem State.offer_rnd (r : Draw) : (s.offer r).rnd = drawByte r := rfl
@[simp] theorem State.offer_draws (r : Draw) : (s.offer r).draws = s.draws := rfl
@[simp] theorem State.offer_started (r : Draw) : (s.offer r).started = true := rfl
@[simp] theorem State.offer_inputs (r : Draw) : (s.offer r).inputs = s.inputs := rfl
@[simp] theorem State.offer_outputs (r : Draw) : (s.offer r).outputs = s.outputs := rfl

@[simp] theorem State.emit_v (o : Output) : (s.emit o).v = s.v := rfl
@[simp] theorem State.emit_regI (o : Output) : (s.emit o).regI = s.regI := rfl
@[simp] theorem State.emit_pc (o : Output) : (s.emit o).pc = s.pc := rfl
@[simp] theorem State.emit_sp (o : Output) : (s.emit o).sp = s.sp := rfl
@[simp] theorem State.emit_stack (o : Output) : (s.emit o).stack = s.stack := rfl
@[simp] theorem State.emit_dt (o : Output) : (s.emit o).dt = s.dt := rfl
@[simp] theorem State.emit_st (o : Output) : (s.emit o).st = s.st := rfl
@[simp] theorem State.emit_mem (o : Output) : (s.emit o).mem = s.mem := rfl
@[simp] theorem State.emit_fb (o : Output) : (s.emit o).fb = s.fb := rfl
@[simp] theorem State.emit_keypad (o : Output) : (s.emit o).keypad = s.keypad := rfl
@[simp] theorem State.emit_shouldRedraw (o : Output) : (s.emit o).shouldRedraw = s.shouldRedraw := rfl
@[simp] theorem State.emit_mode (o : Output) : (s.emit o).mode = s.mode := rfl
@[simp] theorem State.emit_fault (o : Output) : (s.emit o).fault = s.fault := rfl
@[simp] theorem State.emit_waitX (o : Output) : (s.emit o).waitX = s.waitX := rfl
@[simp] theorem State.emit_rnd (o : Output) : (s.emit o).rnd = s.rnd := rfl
@[simp] theorem State.emit_draws (o : Output) : (s.emit o).draws = s.draws := rfl
@[simp] theorem State.emit_started (o : Output) : (s.emit o).started = s.started := rfl
@[simp] theorem State.emit_inputs (o : Output) : (s.emit o).inputs = s.inputs := rfl
@[simp] theorem State.emit_outputs (o : Output) : (s.emit o).outputs = o :: s.outputs := rfl

@[simp] theorem State.halt_v (f : Fault) (info : Option Nat) : (s.halt f info).v = s.v := rfl
@[simp] theorem State.halt_regI (f : Fault) (info : Option Nat) : (s.halt f info).regI = s.regI := rfl
@[simp] theorem State.halt_pc (f : Fault) (info : Option Nat) : (s.halt f info).pc = s.pc := rfl
@[simp] theorem State.halt_sp (f : Fault) (info : Option Nat) : (s.halt f info).sp = s.sp := rfl
@[simp] theorem State.halt_stack (f : Fault) (info : Option Nat) : (s.halt f info).stack = s.stack := rfl
@[simp] theorem State.halt_dt (f : Fault) (info : Option Nat) : (s.halt f info).dt = s.dt := rfl
@[simp] theorem State.halt_st (f : Fault) (info : Option Nat) : (s.halt f info).st = s.st := rfl
@[simp] theorem State.halt_mem (f : Fault) (info : Option Nat) : (s.halt f info).mem = s.mem := rfl
@[simp] theorem State.halt_fb (f : Fault) (info : Option Nat) : (s.halt f info).fb = s.fb := rfl
@[simp] theorem State.halt_keypad (f : Fault) (info : Option Nat) : (s.halt f info).keypad = s.keypad := rfl
@[simp] theorem State.halt_shouldRedraw (f : Fault) (info : Option Nat) : (s.halt f info).shouldRedraw = s.shouldRedraw := rfl
@[simp] theorem State.halt_mode (f : Fault) (info : Option Nat) : (s.halt f info).mode = .halted := rfl
@[simp] theorem State.halt_fault (f : Fault) (info : Option Nat) : (s.halt f info).fault = some f := rfl
@[simp] theorem State.halt_waitX (f : Fault) (info : Option Nat) : (s.halt f info).waitX = s.waitX := rfl
@[simp] theorem State.halt_rnd (f : Fault) (info : Option Nat) : (s.halt f info).rnd = s.rnd := rfl
@[simp] theorem State.halt_draws (f : Fault) (info : Option Nat) : (s.halt f info).draws = s.draws := rfl
@[simp] theorem State.halt_started (f : Fault) (info : Option Nat) : (s.halt f info).started = s.started := rfl
@[simp] theorem State.halt_inputs (f : Fault) (info : Option Nat) : (s.halt f info).inputs = s.inputs := rfl
@[simp] theorem State.halt_outputs (f : Fault) (info : Option Nat) : (s.halt f info).outputs = .fault f info :: s.outputs := rfl

@[simp] theorem State.setFlag_v (c : Bool) : (s.setFlag c).v = s.v.set 15 (flagByte c) := rfl
@[simp] theorem State.setFlag_regI (c : Bool) : (s.setFlag c).regI = s.regI := rfl
@[simp] theorem State.setFlag_pc (c : Bool) : (s.setFlag c).pc = s.pc := rfl
@[simp] theorem State.setFlag_sp (c : Bool) : (s.setFlag c).sp = s.sp := rfl
@[simp] theorem State.setFlag_stack (c : Bool) : (s.setFlag c).stack = s.stack := rfl
@[simp] theorem State.setFlag_dt (c : Bool) : (s.setFlag c).dt = s.dt := rfl
@[simp] theorem State.setFlag_st (c : Bool) : (s.setFlag c).st = s.st := rfl
@[simp] theorem State.setFlag_mem (c : Bool) : (s.setFlag c).mem = s.mem := rfl
@[simp] theorem State.setFlag_fb (c : Bool) : (s.setFlag c).fb = s.fb := rfl
@[simp] theorem State.setFlag_keypad (c : Bool) : (s.setFlag c).keypad = s.keypad := rfl
@[simp] theorem State.setFlag_shouldRedraw (c : Bool) : (s.setFlag c).shouldRedraw = s.shouldRedraw := rfl
@[simp] theorem State.setFlag_mode (c : Bool) : (s.setFlag c).mode = s.mode := rfl
@[simp] theorem State.setFlag_fault (c : Bool) : (s.setFlag c).fault = s.fault := rfl
@[simp] theorem State.setFlag_waitX (c : Bool) : (s.setFlag c).waitX = s.waitX := rfl
@[simp] theorem State.setFlag_rnd (c : Bool) : (s.setFlag c).rnd = s.rnd := rfl
@[simp] theorem State.setFlag_draws (c : Bool) : (s.setFlag c).draws = s.draws := rfl
@[simp] theorem State.setFlag_started (c : Bool) : (s.setFlag c).started = s.started := rfl
@[simp] theorem State.setFlag_inputs (c : Bool) : (s.setFlag c).inputs = s.inputs := rfl
@[simp] theorem State.setFlag_outputs (c : Bool) : (s.setFlag c).outputs = s.outputs := rfl

end Sys2Proof.Machine
end

