-- ==== Sys2Proof/Laws/Ops.lean ====
section
/-! SUPPORT. One lemma for each shared operation that says all it can do: registers, flags, the call stack, timers, addresses,
pixels, and the loop of a handler. -/

namespace Sys2Proof.Machine

/-! Registers and flags. -/

theorem State.reg_setReg (s : State) (x r : RegIdx) (b : Byte) :
    (s.setReg x b).reg r = if r = x then b else s.reg r := by
  simp only [State.reg, State.setReg_v, Vector.getElem_set, Fin.ext_iff, eq_comm (a := x.val)]

@[simp] theorem State.reg_setReg_self (s : State) (x : RegIdx) (b : Byte) : (s.setReg x b).reg x = b := by
  simp [State.reg_setReg]

theorem State.reg_setReg_ne {s : State} {x r : RegIdx} {b : Byte} (h : r ≠ x) : (s.setReg x b).reg r = s.reg r := by
  simp [State.reg_setReg, h]

theorem State.reg_setFlag (s : State) (c : Bool) (r : RegIdx) :
    (s.setFlag c).reg r = if r = 15 then flagByte c else s.reg r := State.reg_setReg s 15 r _

/-- Two states that agree but for their registers, and on every register, are the same. -/
theorem State.ext_reg {s t : State} (h : t = { s with v := t.v }) (hr : ∀ r, t.reg r = s.reg r) : t = s := by
  have hv : t.v = s.v := by
    ext n hn
    have := hr ⟨n, hn⟩
    simp only [State.reg] at this
    rw [this]
  rw [h, hv]

theorem flagByte_toNat (c : Bool) : (flagByte c).toNat = if c = true then 1 else 0 := by cases c <;> rfl

/-- A flag-writing instruction that writes VF first: what every register holds after it. -/
theorem State.reg_flagThenResult (s : State) (c : Bool) (x r : RegIdx) (f : State → Byte) :
    (s.flagThenResult c x f).reg r =
      if r = x then f (s.setFlag c) else if r = 15 then flagByte c else s.reg r := by
  simp only [State.flagThenResult, State.reg_setReg, State.reg_setFlag]

/-- It changes no field but the registers. -/
theorem State.flagThenResult_only (s : State) (c : Bool) (x : RegIdx) (f : State → Byte) :
    s.flagThenResult c x f = { s with v := (s.flagThenResult c x f).v } := rfl

theorem wideSum_toNat (a b : Byte) : (wideSum a b).toNat = a.toNat + b.toNat := by
  have ha := a.isLt
  have hb := b.isLt
  simp only [wideSum, BitVec.toNat_add, BitVec.toNat_setWidth]
  omega

theorem carryOf_iff (a b : Byte) : carryOf a b = true ↔ 255 < a.toNat + b.toNat := by
  simp [carryOf, wideSum_toNat]

theorem addResult_toNat (a b : Byte) :
    (addResult a b).toNat =
      if 255 < a.toNat + b.toNat then (a.toNat + b.toNat) / 256 else a.toNat + b.toNat := by
  have ha := a.isLt
  have hb := b.isLt
  unfold addResult
  by_cases h : 255 < a.toNat + b.toNat
  · rw [if_pos ((carryOf_iff a b).2 h), if_pos h, BitVec.extractLsb'_toNat, wideSum_toNat, Nat.shiftRight_eq_div_pow]
    omega
  · rw [if_neg (mt (carryOf_iff a b).1 h), if_neg h, BitVec.extractLsb'_toNat, wideSum_toNat, Nat.shiftRight_zero]
    omega

theorem notBorrow_iff (a b : Byte) : notBorrow a b = true ↔ b.toNat ≤ a.toNat := by simp [notBorrow]

theorem bitZero_iff (a : Byte) : bitZero a = true ↔ a.toNat % 2 = 1 := by
  simp [bitZero, BitVec.getLsbD, Nat.testBit_zero]

theorem bitSeven_iff (a : Byte) : bitSeven a = true ↔ 128 ≤ a.toNat := by
  have := a.isLt
  simp only [bitSeven, BitVec.getLsbD, Nat.testBit_eq_decide_div_mod_eq, decide_eq_true_eq]
  omega

/-! Timers, the random byte, addresses. -/

/-- Counting down is subtraction that stops at 0. -/
theorem countDown_toNat (t : Byte) : (countDown t).toNat = t.toNat - 1 := by
  unfold countDown
  split
  · simp [*]
  · rename_i h
    have h1 : t.toNat ≠ 0 := fun h0 => h (by apply BitVec.eq_of_toNat_eq; simpa using h0)
    have := t.isLt
    rw [BitVec.toNat_sub, show (1 : Byte).toNat = 1 from rfl]
    omega

theorem drawByte_toNat (r : Draw) : (drawByte r).toNat = r.val + 1 := by
  have := r.isLt
  simp only [drawByte, BitVec.toNat_ofNat]
  omega

theorem addrOperand_toNat (nnn : Addr) : (addrOperand nnn).toNat = nnn.toNat := by
  have := nnn.isLt
  simp only [addrOperand, BitVec.toNat_setWidth]
  omega

theorem indexedAddr_toNat (s : State) (nnn : Addr) : (indexedAddr s nnn).toNat = nnn.toNat + (s.reg 0).toNat := by
  have h1 := nnn.isLt
  have h2 := (s.reg 0).isLt
  simp only [indexedAddr, BitVec.toNat_add, addrOperand_toNat, BitVec.toNat_setWidth]
  omega

/-- Moving `PC` over a word, where it does not leave 16 bits (R28). -/
theorem State.advance_pc_toNat {s : State} (h : s.pc.toNat ≤ 65533) : s.advance.pc.toNat = s.pc.toNat + 2 := by
  rw [State.advance_pc, BitVec.toNat_add, show (2 : Word).toNat = 2 from rfl]
  omega

/-- A skip changes `PC` at most. -/
theorem State.skipIf_eq (s : State) (c : Bool) :
    s.skipIf c = { s with pc := if c = true then s.pc + 2 else s.pc } := by
  cases c <;> rfl

/-! The call stack. -/

theorem State.push?_of_lt {s : State} (ret : Word) (h : s.sp.val < 16) :
    s.push? ret = some { s with stack := s.stack.set s.sp.val ret, sp := ⟨s.sp.val + 1, by omega⟩ } := by
  simp [State.push?, h]

theorem State.push?_of_full {s : State} (ret : Word) (h : s.sp.val = 16) : s.push? ret = none := by
  simp [State.push?, h]

theorem State.pop?_of_pos {s : State} (h : 0 < s.sp.val) (hs : s.sp.val - 1 < 16 := by omega) :
    s.pop? = some (s.stack[s.sp.val - 1],
      { s with stack := s.stack.set (s.sp.val - 1) 0, sp := ⟨s.sp.val - 1, by omega⟩ }) := by
  simp [State.pop?, h]

theorem State.pop?_of_empty {s : State} (h : s.sp.val = 0) : s.pop? = none := by
  simp [State.pop?, h]

/-! The keypad. -/

theorem State.keyLevel?_of_lt {s : State} {k : Byte} (h : k.toNat < 16) : s.keyLevel? k = some s.keypad[k.toNat] := by
  simp [State.keyLevel?, h]

theorem State.keyLevel?_of_ge {s : State} {k : Byte} (h : 15 < k.toNat) : s.keyLevel? k = none := by
  simp [State.keyLevel?]; omega

/-- A key's level after a key event. -/
theorem State.keypad_setKey (s : State) (k j : Key) (d : Bool) :
    (s.setKey k d).keypad[j.val] = if j = k then d else s.keypad[j.val] := by
  simp only [State.setKey_keypad, Vector.getElem_set, Fin.ext_iff, eq_comm (a := k.val)]

/-! Pixels. -/

theorem State.pixel_togglePixel (s : State) {n p : Nat} (hp : p < 2048) :
    (s.togglePixel n).pixel p = (s.pixel p != decide (p = n)) := by
  by_cases h : p = n
  · subst h; simp [State.pixel, hp]
  · simp [State.pixel, BitVec.getLsbD_twoPow, h, Ne.symm h]

theorem State.pixel_clearScreen (s : State) (p : Nat) : s.clearScreen.pixel p = false := by
  simp [State.pixel]

/-- Two framebuffers with the same pixels are the same. -/
theorem State.ext_pixel {s t : State} (h : ∀ p < 2048, s.pixel p = t.pixel p) : s.fb = t.fb :=
  BitVec.eq_of_getLsbD_eq fun p hp => h p hp

/-! The loop of a handler. -/

theorem forEach_append {α : Type} (f : α → State → Flow) (l l' : List α) (s : State) :
    forEach f (l ++ l') s =
      match forEach f l s with
      | .go t => forEach f l' t
      | .stop k info t => .stop k info t := by
  induction l generalizing s with
  | nil => rfl
  | cons a l ih =>
    simp only [List.cons_append, forEach]
    cases f a s with
    | go t => exact ih t
    | stop => rfl

/-- A nested loop is one loop over the inner elements in order. -/
theorem forEach_flatMap {α β : Type} (f : β → State → Flow) (g : α → List β) (l : List α) (s : State) :
    forEach f (l.flatMap g) s = forEach (fun a => forEach f (g a)) l s := by
  induction l generalizing s with
  | nil => rfl
  | cons a l ih =>
    rw [List.flatMap_cons, forEach_append, forEach]
    cases forEach f (g a) s with
    | go t => exact ih t
    | stop => rfl

/-- What a flow ends in, whether it goes on or has raised. -/
def Flow.state : Flow → State
  | .go s => s
  | .stop _ _ s => s

/-- What every step of a loop keeps, the loop keeps, whether it goes on or raises. -/
theorem forEach_keeps {α : Type} {P : State → Prop} {f : α → State → Flow} (hf : ∀ a s, P s → P (f a s).state)
    (l : List α) (s : State) (hs : P s) : P (forEach f l s).state := by
  induction l generalizing s with
  | nil => exact hs
  | cons a l ih =>
    have ha := hf a s hs
    rw [forEach]
    cases h : f a s with
    | go t => rw [h] at ha; exact ih t ha
    | stop k info t => rw [h] at ha; exact ha

/-- A handler's progress, its state changed. -/
def Flow.mapState (g : State → State) : Flow → Flow
  | .go s => .go (g s)
  | .stop f info s => .stop f info (g s)

/-- A loop commutes with a change of state that each of its steps commutes with. -/
theorem forEach_commutes {α : Type} {g : State → State} {f : α → State → Flow}
    (hf : ∀ a s, f a (g s) = (f a s).mapState g) (l : List α) (s : State) :
    forEach f l (g s) = (forEach f l s).mapState g := by
  induction l generalizing s with
  | nil => rfl
  | cons a l ih =>
    rw [forEach, forEach, hf]
    cases f a s with
    | go t => exact ih t
    | stop => rfl

end Sys2Proof.Machine
end

