-- ==== Sys2Proof/Laws/Tick.lean ====
section
/-! SUPPORT. What a step can do, said once: which event it takes, and what a tick in `RUN` does. -/

namespace Sys2Proof.Machine

/-- A tick ends with the timer step exactly when the machine still runs (R100, R195). -/
theorem finishTick_next (t : State) : finishTick (.next t) = .next (if t.mode = .run then t.timerStep else t) := by
  unfold finishTick
  cases h : t.mode <;> simp [h]

theorem offer_nextWord (s : State) (r : Draw) : (s.offer r).mem.readWord (s.offer r).pc.toNat = s.nextWord := rfl

/-- The handler's state, from the state before the tick. -/
theorem advance_offer (s : State) (r : Draw) :
    (s.offer r).advance = { s with rnd := drawByte r, started := true, pc := s.pc + 2 } := rfl

/-- A tick whose fetch succeeds. -/
theorem runTick_of_le {s : State} (r : Draw) (h : s.pc.toNat ≤ 4094) :
    runTick r s = finishTick (execute s.nextWord (s.offer r).advance) := by
  simp only [runTick, fetch, State.offer_pc, h, if_true]
  rfl

/-- A tick whose fetch fails. -/
theorem runTick_of_gt {s : State} (r : Draw) (h : 4094 < s.pc.toNat) :
    runTick r s = .next ((s.offer r).halt .memBounds (some s.pc.toNat)) := by
  simp only [runTick, fetch, State.offer_pc, Nat.not_le.2 h, if_false]
  rfl

/-- What a tick in `RUN` can do: halt at the fetch, run the instruction of the word, or emit the diagnostic. -/
theorem runTick_cases {r : Draw} {s t : State} (hm : s.mode = .run) (h : runTick r s = .next t) :
    (4094 < s.pc.toNat ∧ t = (s.offer r).halt .memBounds (some s.pc.toNat)) ∨
    (s.pc.toNat ≤ 4094 ∧ ∃ i u, decode s.nextWord = some i ∧ exec i (s.offer r).advance = .next u ∧
      t = if u.mode = .run then u.timerStep else u) ∨
    (s.pc.toNat ≤ 4094 ∧ decode s.nextWord = none ∧ t = ((s.offer r).advance.emit (.diag s.nextWord)).timerStep) := by
  rcases Nat.lt_or_ge 4094 s.pc.toNat with hgt | hle
  · rw [runTick_of_gt r hgt] at h
    cases h
    exact .inl ⟨hgt, rfl⟩
  · rw [runTick_of_le r hle, execute] at h
    cases hd : decode s.nextWord with
    | none =>
      simp only [hd, finishTick_next, State.emit_mode, State.advance_mode, State.offer_mode, hm, if_true] at h
      cases h
      exact .inr (.inr ⟨hle, rfl, rfl⟩)
    | some i =>
      simp only [hd] at h
      cases hx : exec i (s.offer r).advance with
      | next u =>
        rw [hx, finishTick_next] at h
        cases h
        exact .inr (.inl ⟨hle, i, u, rfl, hx, rfl⟩)
      | fault f => rw [hx] at h; cases h
      | refused q => rw [hx] at h; cases h

/-! The step. -/

theorem step_of_nil {s : State} (h : s.inputs = []) : step s = freeTick s := by simp [step, nextEvent, h]

theorem step_of_cons {s : State} {e : Input} {rest : List Input} (h : s.inputs = e :: rest) :
    step s = handleInput e { s with inputs := rest } := by simp [step, nextEvent, h]

/-- A step whose event is a TICK, in `RUN`. -/
theorem step_of_nextTick {s : State} {r : Draw} {rest : List Input} {d : Nat} (h : NextTick s r rest d)
    (hm : s.mode = .run) : step s = runTick r { s with inputs := rest, draws := d } := by
  rcases h with ⟨hi, rfl⟩ | ⟨hi, rfl, rfl, rfl⟩
  · rw [step_of_cons hi]
    simp only [handleInput, tick, hm]
  · rw [step_of_nil hi, freeTick]
    simp only [hm]
    congr 1
    cases s
    simp_all

/-- Which TICK is next. -/
theorem nextTick_of_tickIsNext {s : State} (h : TickIsNext s) : ∃ r rest d, NextTick s r rest d := by
  unfold TickIsNext at h
  cases hi : s.inputs with
  | nil => exact ⟨_, _, _, .inr ⟨hi, rfl, rfl, rfl⟩⟩
  | cons e rest =>
    rw [hi] at h
    obtain ⟨r, rfl⟩ := h
    exact ⟨r, rest, _, .inl ⟨hi, rfl⟩⟩

theorem tickIsNext_of_nextTick {s : State} {r : Draw} {rest : List Input} {d : Nat} (h : NextTick s r rest d) :
    TickIsNext s := by
  rcases h with ⟨hi, -⟩ | ⟨hi, -⟩
  · simp [TickIsNext, hi]
  · simp [TickIsNext, hi]

/-- A step whose event is a TICK, in `WAIT_KEY` or `HALTED`: only the event is gone (R104). -/
theorem step_of_tick_not_run {s : State} (h : TickIsNext s) (hm : s.mode ≠ .run) :
    step s = .next { s with inputs := s.inputs.tail } := by
  cases hi : s.inputs with
  | nil =>
    rw [step_of_nil hi, freeTick]
    cases hmode : s.mode with
    | run => exact absurd hmode hm
    | waitKey => cases s; simp_all
    | halted => cases s; simp_all
  | cons e rest =>
    rw [TickIsNext, hi] at h
    obtain ⟨r, rfl⟩ := h
    rw [step_of_cons hi, handleInput, tick]
    cases hmode : s.mode with
    | run => exact absurd hmode hm
    | waitKey => rfl
    | halted => rfl

/-- What a step can do, by the event it takes. -/
theorem step_cases {s t : State} (h : step s = .next t) :
    (TickIsNext s ∧ s.mode = .run ∧
      ∃ r rest d, NextTick s r rest d ∧ runTick r { s with inputs := rest, draws := d } = .next t) ∨
    (TickIsNext s ∧ s.mode ≠ .run ∧ t = { s with inputs := s.inputs.tail }) ∨
    (∃ k rest, s.inputs = .keyDown k :: rest ∧ t = keyDown k { s with inputs := rest }) ∨
    (∃ k rest, s.inputs = .keyUp k :: rest ∧ t = keyUp k { s with inputs := rest }) ∨
    (∃ rest, s.inputs = .present :: rest ∧ t = present { s with inputs := rest }) ∨
    (∃ a b rest, s.inputs = .load a b :: rest ∧ load a b { s with inputs := rest } = .next t) ∨
    (∃ rest, s.inputs = .reset :: rest ∧ t = ({ s with inputs := rest } : State).restart) := by
  have tickCase : TickIsNext s → (TickIsNext s ∧ s.mode = .run ∧
      ∃ r rest d, NextTick s r rest d ∧ runTick r { s with inputs := rest, draws := d } = .next t) ∨
      (TickIsNext s ∧ s.mode ≠ .run ∧ t = { s with inputs := s.inputs.tail }) := by
    intro htick
    by_cases hm : s.mode = .run
    · obtain ⟨r, rest, d, hn⟩ := nextTick_of_tickIsNext htick
      rw [step_of_nextTick hn hm] at h
      exact .inl ⟨htick, hm, r, rest, d, hn, h⟩
    · rw [step_of_tick_not_run htick hm] at h
      cases h
      exact .inr ⟨htick, hm, rfl⟩
  cases hi : s.inputs with
  | nil =>
    have := tickCase (by simp [TickIsNext, hi])
    rw [hi] at this
    exact this.elim .inl fun h => .inr (.inl h)
  | cons e rest =>
    have h' := h
    rw [step_of_cons hi] at h'
    cases e with
    | tick r =>
      have := tickCase (by simp [TickIsNext, hi])
      rw [hi] at this
      exact this.elim .inl fun h => .inr (.inl h)
    | keyDown k => cases h'; exact .inr (.inr (.inl ⟨k, rest, rfl, rfl⟩))
    | keyUp k => cases h'; exact .inr (.inr (.inr (.inl ⟨k, rest, rfl, rfl⟩)))
    | present => cases h'; exact .inr (.inr (.inr (.inr (.inl ⟨rest, rfl, rfl⟩))))
    | load a b => exact .inr (.inr (.inr (.inr (.inr (.inl ⟨a, b, rest, rfl, h'⟩)))))
    | reset => cases h'; exact .inr (.inr (.inr (.inr (.inr (.inr ⟨rest, rfl, rfl⟩)))))

/-- What LOAD can do. -/
theorem load_cases {a : Fin 4096} {b : Byte} {s t : State} (h : load a b s = .next t) :
    (s.mode = .halted ∧ t = s) ∨ (s.mode ≠ .halted ∧ s.started = false ∧ t = s.memWrite a b) := by
  unfold load at h
  cases hm : s.mode <;> cases hs : s.started <;> simp_all

/-- What KEY_DOWN can change. -/
theorem keyDown_frame (k : Key) (s : State) :
    keyDown k s = { s with v := (keyDown k s).v, keypad := (keyDown k s).keypad, mode := (keyDown k s).mode,
                           dt := (keyDown k s).dt, st := (keyDown k s).st } := by
  unfold keyDown; split <;> rfl

/-- KEY_DOWN outside a key wait leaves registers, timers and mode as they are. -/
theorem keyDown_of_not_waiting {s : State} (h : s.mode ≠ .waitKey) (k : Key) :
    keyDown k s = { s with keypad := (keyDown k s).keypad } := by
  unfold keyDown; split
  · rfl
  · rename_i hw; exact absurd hw h
  · rfl

/-- KEY_UP changes the keypad at most. -/
theorem keyUp_frame (k : Key) (s : State) : keyUp k s = { s with keypad := (keyUp k s).keypad } := by
  unfold keyUp; split <;> rfl

/-- PRESENT changes the redraw flag and the outputs at most. -/
theorem present_frame (s : State) :
    present s = { s with shouldRedraw := (present s).shouldRedraw, outputs := (present s).outputs } := by
  unfold present; split <;> rfl

end Sys2Proof.Machine
end

