-- ==== Sys2Proof/Laws/Boot.lean ====
section
/-! SUPPORT. Running the LOAD events of the boot sequence: what consecutive loads leave, said once for font and program. -/

namespace Sys2Proof.Machine

/-- One step of a run. -/
theorem run_succ {s t : State} (h : step s = .next t) (k : Nat) :
    Host.Core.run Sys2Proof.core (k + 1) s = Host.Core.run Sys2Proof.core k t := by
  have h' : Sys2Proof.core.step s = .next t := h
  simp only [Host.Core.run, h']

/-- A LOAD before the first TICK, not in `HALTED`, writes its byte. -/
theorem step_of_load {s : State} {a : Fin 4096} {b : Byte} {rest : List Input} (hi : s.inputs = .load a b :: rest)
    (hs : s.started = false) (hm : s.mode ≠ .halted) :
    step s = .next (State.memWrite { s with inputs := rest } a b) := by
  rw [step_of_cons hi, handleInput, load]
  cases hmode : s.mode with
  | halted => exact absurd hmode hm
  | run => simp only [hs]
  | waitKey => simp only [hs]

/-- Inside memory there is one LOAD event for each byte. -/
theorem loadInputs_length {base : Nat} {bs : List Byte} (h : base + bs.length ≤ 4096) :
    (loadInputs base bs).length = bs.length := by
  induction bs generalizing base with
  | nil => rfl
  | cons b bs ih =>
    simp only [List.length_cons] at h
    rw [loadInputs, dif_pos (by omega), List.length_cons, List.length_cons, ih (by omega)]

/-- Consecutive LOAD events before the first TICK write their bytes and nothing else, one a step. -/
theorem run_loadInputs {base : Nat} {bs : List Byte} (h : base + bs.length ≤ 4096) {s : State} {rest : List Input}
    (hi : s.inputs = loadInputs base bs ++ rest) (hs : s.started = false) (hm : s.mode ≠ .halted) (k : Nat) :
    Host.Core.run Sys2Proof.core (bs.length + k) s =
      Host.Core.run Sys2Proof.core k { s with inputs := rest, mem := s.mem.writeBytes base bs } := by
  induction bs generalizing base s with
  | nil =>
    rw [loadInputs, List.nil_append] at hi
    rw [List.length_nil, Nat.zero_add, ← hi]
    rfl
  | cons b bs ih =>
    simp only [List.length_cons] at h ⊢
    rw [loadInputs, dif_pos (by omega), List.cons_append] at hi
    rw [Nat.add_right_comm, run_succ (step_of_load hi hs hm)]
    exact ih (by omega) rfl hs hm

end Sys2Proof.Machine
end

