-- ==== Sys2Proof/Laws/Decode.lean ====
section
/-! SUPPORT. The decoder and the encoder in numbers: what a mask keeps of a word, what each field is, and the word of each
format. With these an encoding question is one of division by powers of two. -/

namespace Sys2Proof

/-! What the four masks of the opcode map keep. -/

theorem and_family (w : Word) : (w &&& 0xF000#16).toNat = w.toNat / 4096 * 4096 := by
  have h : w &&& 0xF000#16 = (w >>> 12) <<< 12 := by
    ext i hi
    interval_cases i <;> simp
  have := w.isLt
  rw [h, BitVec.toNat_shiftLeft, BitVec.toNat_ushiftRight, Nat.shiftRight_eq_div_pow, Nat.shiftLeft_eq]
  omega

theorem and_low (w : Word) (k : Nat) (hk : k ≤ 16) : (w &&& BitVec.ofNat 16 (2 ^ k - 1)).toNat = w.toNat % 2 ^ k := by
  have h1 : 2 ^ k ≤ 2 ^ 16 := Nat.pow_le_pow_right (by omega) hk
  have h2 : 0 < 2 ^ k := Nat.two_pow_pos k
  rw [BitVec.toNat_and, BitVec.toNat_ofNat, Nat.mod_eq_of_lt (by omega), Nat.and_two_pow_sub_one_eq_mod]

theorem and_family_low (w : Word) (k : Nat) (hk : k ≤ 12) (m : Word)
    (hm : m = 0xF000#16 ||| BitVec.ofNat 16 (2 ^ k - 1)) :
    (w &&& m).toNat = w.toNat / 4096 * 4096 + w.toNat % 2 ^ k := by
  have h1 : 2 ^ k ≤ 2 ^ 12 := Nat.pow_le_pow_right (by omega) hk
  have h2 : w.toNat % 2 ^ k < 2 ^ 12 := Nat.lt_of_lt_of_le (Nat.mod_lt _ (Nat.two_pow_pos k)) h1
  have h3 : w &&& m = (w &&& 0xF000#16) ||| (w &&& BitVec.ofNat 16 (2 ^ k - 1)) := by
    rw [hm]; ext i hi; simp [Bool.and_or_distrib_left]
  rw [h3, BitVec.toNat_or, and_family, and_low w k (by omega), show 4096 = 2 ^ 12 from rfl, ← Nat.shiftLeft_eq,
    Nat.shiftLeft_add_eq_or_of_lt h2]

/-- What a row covers, in numbers: the mask keeps the family nibble, and none, four or eight of the low bits, or all. -/
theorem and_mask (w : Word) :
    (w &&& 0xFFFF#16).toNat = w.toNat ∧ (w &&& 0xF000#16).toNat = w.toNat / 4096 * 4096 ∧
      (w &&& 0xF00F#16).toNat = w.toNat / 4096 * 4096 + w.toNat % 16 ∧
      (w &&& 0xF0FF#16).toNat = w.toNat / 4096 * 4096 + w.toNat % 256 := by
  refine ⟨?_, and_family w, and_family_low w 4 (by omega) _ rfl, and_family_low w 8 (by omega) _ rfl⟩
  have := and_low w 16 (by omega)
  have hw := w.isLt
  rwa [Nat.mod_eq_of_lt (by simpa using hw)] at this

theorem covers_iff (r : OpcodeRow) (w : Word) : r.covers w = true ↔ (w &&& r.mask).toNat = r.mtch.toNat := by
  rw [OpcodeRow.covers, beq_iff_eq, ← BitVec.toNat_inj]

/-- Two rows that cover one word agree on the bits both masks keep. -/
theorem covers_agree {r r' : OpcodeRow} {w : Word} (h : r.covers w = true) (h' : r'.covers w = true) :
    r.mtch &&& r'.mask = r'.mtch &&& r.mask := by
  rw [OpcodeRow.covers, beq_iff_eq] at h h'
  rw [← h, ← h', BitVec.and_assoc, BitVec.and_assoc, BitVec.and_comm r.mask]

/-! The words of the formats. -/

theorem regBits_toNat (x : RegIdx) : (regBits x).toNat = x.val := rfl

/-- Format A: family, `NNN` (R82). -/
theorem wordA_toNat (f : BitVec 4) (nnn : Addr) :
    BitVec.toNat (w := 16) (f ++ nnn) = f.toNat * 4096 + nnn.toNat := by
  refine (BitVec.toNat_append f nnn).trans ?_
  rw [← Nat.shiftLeft_add_eq_or_of_lt nnn.isLt, Nat.shiftLeft_eq]

/-- Format XK and XS: family, `X`, a byte (R82). -/
theorem wordXK_toNat (f x : BitVec 4) (k : Byte) :
    BitVec.toNat (w := 16) (f ++ x ++ k) = f.toNat * 4096 + x.toNat * 256 + k.toNat := by
  refine (BitVec.toNat_append (f ++ x) k).trans ?_
  rw [← Nat.shiftLeft_add_eq_or_of_lt k.isLt, Nat.shiftLeft_eq, BitVec.toNat_append,
    ← Nat.shiftLeft_add_eq_or_of_lt x.isLt, Nat.shiftLeft_eq]
  omega

/-- Format XY and XYN: family, `X`, `Y`, a nibble (R82). -/
theorem wordXY_toNat (f x y n : BitVec 4) :
    BitVec.toNat (w := 16) (f ++ x ++ y ++ n) = f.toNat * 4096 + x.toNat * 256 + y.toNat * 16 + n.toNat := by
  refine (BitVec.toNat_append (f ++ x ++ y) n).trans ?_
  rw [← Nat.shiftLeft_add_eq_or_of_lt n.isLt, Nat.shiftLeft_eq, BitVec.toNat_append,
    ← Nat.shiftLeft_add_eq_or_of_lt y.isLt, Nat.shiftLeft_eq, BitVec.toNat_append,
    ← Nat.shiftLeft_add_eq_or_of_lt x.isLt, Nat.shiftLeft_eq]
  omega

/-- Two consecutive bytes make the word that has them as high and low byte (R63). -/
theorem wordOfBytes_toNat (hi lo : Byte) : (wordOfBytes hi lo).toNat = hi.toNat * 256 + lo.toNat := by
  refine (BitVec.toNat_append hi lo).trans ?_
  rw [← Nat.shiftLeft_add_eq_or_of_lt lo.isLt, Nat.shiftLeft_eq]

theorem highByte_toNat (w : Word) : (highByte w).toNat = w.toNat / 256 := by
  have := w.isLt
  rw [highByte, BitVec.extractLsb'_toNat, Nat.shiftRight_eq_div_pow]
  omega

theorem lowByte_toNat (w : Word) : (lowByte w).toNat = w.toNat % 256 := by
  rw [lowByte, BitVec.extractLsb'_toNat, Nat.shiftRight_zero]

/-- A word is made of its two bytes. -/
theorem wordOfBytes_bytes (w : Word) : wordOfBytes (highByte w) (lowByte w) = w := by
  apply BitVec.eq_of_toNat_eq
  rw [wordOfBytes_toNat, highByte_toNat, lowByte_toNat]
  omega

end Sys2Proof
end

