-- ==== Sys2Proof/Laws/Draw.lean ====
section
/-! SUPPORT. The blit: the nested loop of a draw as one loop over its positions in order, and what that loop has done when it
ends or raises. -/

namespace Sys2Proof.Machine

/-- One position (row, col) of the listing "Draw": the row's memory bounds check, then the sprite bit. -/
def drawPosition (x y : Nat) (p : Nat × Nat) (s : State) : Flow :=
  match s.memRead? (rowAddr s p.1) with
  | some b => drawBit x y p.1 b p.2 s
  | none => .stop .memBounds (rowAddr s p.1) s

/-- What a draw may change of a state while it runs: VF and the framebuffer. -/
def OnlyBlit (s t : State) : Prop := t = { s with v := t.v, fb := t.fb } ∧ ∀ r, r ≠ 15 → t.reg r = s.reg r

theorem OnlyBlit.refl (s : State) : OnlyBlit s s := ⟨rfl, fun _ _ => rfl⟩

theorem OnlyBlit.trans {s t u : State} (h : OnlyBlit s t) (h' : OnlyBlit t u) : OnlyBlit s u := by
  refine ⟨?_, fun r hr => (h'.2 r hr).trans (h.2 r hr)⟩
  have h1 := h.1
  have h2 := h'.1
  rw [h1] at h2
  exact h2

theorem OnlyBlit.mem {s t : State} (h : OnlyBlit s t) : t.mem = s.mem := by rw [h.1]

theorem OnlyBlit.regI {s t : State} (h : OnlyBlit s t) : t.regI = s.regI := by rw [h.1]

theorem onlyBlit_setFlag (s : State) (c : Bool) : OnlyBlit s (s.setFlag c) :=
  ⟨rfl, fun r hr => by rw [State.reg_setFlag, if_neg hr]⟩

theorem onlyBlit_togglePixel (s : State) (n : Nat) : OnlyBlit s (s.togglePixel n) := ⟨rfl, fun _ _ => rfl⟩

theorem onlyBlit_blitPixel (s : State) (n : Nat) : OnlyBlit s (s.blitPixel n) := by
  unfold State.blitPixel
  split
  · exact (onlyBlit_setFlag s true).trans (onlyBlit_togglePixel _ n)
  · exact onlyBlit_togglePixel s n

theorem onlyBlit_drawBit (x y row : Nat) (b : Byte) (col : Nat) (s : State) :
    OnlyBlit s (drawBit x y row b col s).state := by
  unfold drawBit
  split_ifs
  · exact onlyBlit_blitPixel s _
  · exact .refl s
  · exact .refl s

/-- A row of a draw changes VF and the framebuffer at most, whether it goes on or raises. -/
theorem onlyBlit_drawRow (x y row : Nat) (s : State) : OnlyBlit s (drawRow x y row s).state := by
  unfold drawRow
  split
  · exact forEach_keeps (P := OnlyBlit s) (fun col t ht => ht.trans (onlyBlit_drawBit x y row _ col t)) _ s (.refl s)
  · exact .refl s

/-- All rows of a draw change VF and the framebuffer at most, whether the draw goes on or raises. -/
theorem onlyBlit_drawRows (x y : Nat) (l : List Nat) (s : State) : OnlyBlit s (forEach (drawRow x y) l s).state :=
  forEach_keeps (P := OnlyBlit s) (fun row t ht => ht.trans (onlyBlit_drawRow x y row t)) l s (.refl s)

/-- A draw answers a next state: it completed, or it raised one fault in the middle; VF, the framebuffer and the redraw flag, or
the fault sequence, are all that changes. -/
theorem execDrw_cases (x y : RegIdx) (n : Nibble) (s : State) :
    ∃ t, OnlyBlit s t ∧ (execDrw x y n s = .next t.setRedraw ∨
      ∃ f info, execDrw x y n s = .next (t.halt f (some info))) := by
  have h := onlyBlit_drawRows (s.reg x).toNat (s.reg y).toNat (List.range n.toNat) (s.setFlag false)
  unfold execDrw
  split
  · rename_i t ht
    rw [ht] at h
    exact ⟨t, (onlyBlit_setFlag s false).trans h, .inl rfl⟩
  · rename_i f info t ht
    rw [ht] at h
    exact ⟨t, (onlyBlit_setFlag s false).trans h, .inr ⟨f, info, rfl⟩⟩

theorem memRead?_of_onlyBlit {s t : State} (h : OnlyBlit s t) (a : Nat) : t.memRead? a = s.memRead? a := by
  rw [State.memRead?, State.memRead?, h.mem]

theorem rowAddr_of_onlyBlit {s t : State} (h : OnlyBlit s t) (row : Nat) : rowAddr t row = rowAddr s row := by
  rw [rowAddr, rowAddr, h.regI]

theorem forEach_map {α β : Type} (f : β → State → Flow) (g : α → β) (l : List α) (s : State) :
    forEach f (l.map g) s = forEach (fun a => f (g a)) l s := by
  induction l generalizing s with
  | nil => rfl
  | cons a l ih =>
    rw [List.map_cons, forEach, forEach]
    cases f (g a) s with
    | go t => exact ih t
    | stop => rfl

/-- The columns of a row whose byte can be read, with or without the row's check before each. -/
theorem forEach_drawBit {s : State} {x y row : Nat} {b : Byte} (hb : s.memRead? (rowAddr s row) = some b)
    (cols : List Nat) {t : State} (ht : OnlyBlit s t) :
    forEach (fun col => drawPosition x y (row, col)) cols t = forEach (drawBit x y row b) cols t := by
  induction cols generalizing t with
  | nil => rfl
  | cons col cols ih =>
    have h : drawPosition x y (row, col) t = drawBit x y row b col t := by
      simp only [drawPosition, rowAddr_of_onlyBlit ht, memRead?_of_onlyBlit ht, hb]
    have hk := onlyBlit_drawBit x y row b col t
    rw [forEach, forEach, h]
    cases hd : drawBit x y row b col t with
    | go u => rw [hd] at hk; exact ih (ht.trans hk)
    | stop => rfl

/-- A row of a draw, position by position. -/
theorem drawRow_eq (x y row : Nat) (s : State) :
    drawRow x y row s = forEach (drawPosition x y) ((List.range 8).map fun col => (row, col)) s := by
  rw [forEach_map]
  unfold drawRow
  cases hb : s.memRead? (rowAddr s row) with
  | some b => exact (forEach_drawBit hb _ (.refl s)).symm
  | none =>
    rw [show List.range 8 = [0, 1, 2, 3, 4, 5, 6, 7] from rfl, forEach]
    simp only [drawPosition, hb]

/-- A draw is one loop over its positions in the order of the listing (R171, R216). -/
theorem forEach_drawRow (x y n : Nat) (s : State) :
    forEach (drawRow x y) (List.range n) s = forEach (drawPosition x y) (drawOrder n) s := by
  rw [drawOrder, forEach_flatMap]
  congr 1
  funext row t
  exact drawRow_eq x y row t

/-- The linear index of a position. -/
def indexOf (x y : Nat) (p : Nat × Nat) : Nat := x + p.2 + (y + p.1) * 64

/-- In the order of the listing the linear indices rise, so no pixel is addressed twice (R174). -/
theorem drawOrder_rises (x y n : Nat) : (drawOrder n).Pairwise fun p q => indexOf x y p < indexOf x y q := by
  rw [drawOrder, List.pairwise_flatMap]
  constructor
  · intro row _
    rw [List.pairwise_map]
    exact List.pairwise_lt_range.imp fun h => by simp only [indexOf]; omega
  · refine List.pairwise_lt_range.imp fun {a b} h p hp q hq => ?_
    obtain ⟨c, hc, rfl⟩ := List.mem_map.1 hp
    obtain ⟨d, -, rfl⟩ := List.mem_map.1 hq
    have := List.mem_range.1 hc
    simp only [indexOf]
    omega

theorem mem_drawOrder {n : Nat} {p : Nat × Nat} : p ∈ drawOrder n ↔ p.1 < n ∧ p.2 < 8 := by
  obtain ⟨row, col⟩ := p
  simp [drawOrder]

/-- A draw in progress: from `s`, VF reset, the pixels `D` have been toggled. -/
structure Drawn (s : State) (D : List Nat) (t : State) : Prop where
  frame : OnlyBlit s t
  pixels : ∀ p < 2048, t.pixel p = (s.pixel p != decide (p ∈ D))
  flag : t.reg 15 = if ∃ p ∈ D, s.pixel p = true then 1 else 0

theorem drawn_nil (s : State) : Drawn s [] (s.setFlag false) where
  frame := onlyBlit_setFlag s false
  pixels p _ := by simp [State.pixel]
  flag := by simp [State.reg_setFlag, flagByte]

theorem Drawn.blit {s t : State} {D : List Nat} {n : Nat} (h : Drawn s D t) (hn : n ≤ 2047) (hD : n ∉ D) :
    Drawn s (D ++ [n]) (t.blitPixel n) := by
  have hpix : t.pixel n = s.pixel n := by rw [h.pixels n (by omega)]; simp [hD]
  have hkeep : ∀ p, (if t.pixel n = true then t.setFlag true else t).pixel p = t.pixel p := by
    intro p; split <;> rfl
  refine ⟨h.frame.trans (onlyBlit_blitPixel t n), fun p hp => ?_, ?_⟩
  · rw [State.blitPixel, State.pixel_togglePixel _ hp, hkeep, h.pixels p hp]
    by_cases hpn : p = n
    · subst hpn; simp [hD]
    · simp [hpn]
  · have hreg : (t.blitPixel n).reg 15 = if t.pixel n = true then 1 else t.reg 15 := by
      unfold State.blitPixel
      split
      · show ((t.setFlag true).reg 15) = 1
        rw [State.reg_setFlag]; rfl
      · rfl
    rw [hreg, h.flag, hpix]
    by_cases hl : s.pixel n = true
    · rw [if_pos hl, if_pos ⟨n, by simp, hl⟩]
    · rw [if_neg hl]
      refine if_congr ?_ rfl rfl
      constructor
      · rintro ⟨p, hp, hs⟩; exact ⟨p, List.mem_append_left _ hp, hs⟩
      · rintro ⟨p, hp, hs⟩
        rcases List.mem_append.1 hp with hp | hp
        · exact ⟨p, hp, hs⟩
        · obtain rfl := List.mem_singleton.1 hp
          exact absurd hs hl

/-- One position of a draw in progress, from the rules: it raises its failing check, or does its bit. -/
theorem drawPosition_eq {s t : State} (h : OnlyBlit s t) (x y : Nat) (p : Nat × Nat) :
    drawPosition x y p t =
      match drawFailure s x y p with
      | some (f, info) => .stop f info t
      | none => .go (if SpriteBitSet s p.1 p.2 = true then t.blitPixel (indexOf x y p) else t) := by
  have hr := h.regI
  have hm := h.mem
  unfold drawPosition drawFailure
  simp only [rowAddr, State.memRead?, hr, hm]
  by_cases h1 : 4095 < s.regI.toNat + p.1
  · simp [h1, Nat.not_le.2 h1]
  · rw [if_pos (by omega : s.regI.toNat + p.1 ≤ 4095), if_neg h1]
    simp only [drawBit, spriteBit, pixelIndex, SpriteBitSet, indexOf]
    by_cases h2 : (Memory.read s.mem (s.regI.toNat + p.1)).getLsbD (7 - p.2) = true
    · by_cases h3 : 2047 < x + p.2 + (y + p.1) * 64
      · simp [h2, h3, Nat.not_le.2 h3]
      · simp [h2, h3, Nat.not_lt.1 h3]
    · simp [h2]

/-- The pixels of the set bits among these positions. -/
def setPixels (s : State) (x y : Nat) (l : List (Nat × Nat)) : List Nat :=
  (l.filter fun p => SpriteBitSet s p.1 p.2).map (indexOf x y)

/-- The loop over positions, from a draw in progress: it ends or raises as the first failing check says, and it has toggled the
pixels of the set bits before that check. -/
theorem forEach_drawPosition {s : State} (x y : Nat) (l : List (Nat × Nat)) {D : List Nat} {t : State}
    (ht : Drawn s D t) (hD : ∀ d ∈ D, ∀ p ∈ l, d < indexOf x y p)
    (hl : l.Pairwise fun p q => indexOf x y p < indexOf x y q) :
    ∃ u, Drawn s (D ++ setPixels s x y (l.takeWhile fun p => (drawFailure s x y p).isNone)) u ∧
      forEach (drawPosition x y) l t =
        match l.findSome? (drawFailure s x y) with
        | some (f, info) => .stop f info u
        | none => .go u := by
  induction l generalizing D t with
  | nil => exact ⟨t, by simpa [setPixels] using ht, rfl⟩
  | cons p l ih =>
    obtain ⟨hp, hl⟩ := List.pairwise_cons.1 hl
    rw [forEach, drawPosition_eq ht.frame, List.findSome?_cons, List.takeWhile_cons]
    cases hf : drawFailure s x y p with
    | some q => exact ⟨t, by simpa [setPixels] using ht, rfl⟩
    | none =>
      by_cases hb : SpriteBitSet s p.1 p.2 = true
      · have hle : indexOf x y p ≤ 2047 := by
          by_contra hgt
          have hgt : 2047 < x + p.2 + (y + p.1) * 64 := by simpa [indexOf] using hgt
          unfold drawFailure at hf
          split at hf
          · simp at hf
          · rw [if_pos ⟨hb, hgt⟩] at hf
            simp at hf
        have hnot : indexOf x y p ∉ D := fun hd => absurd (hD _ hd p (List.mem_cons_self ..)) (lt_irrefl _)
        obtain ⟨u, hu, hrun⟩ := ih (ht.blit hle hnot)
          (fun d hd q hq => by
            rcases List.mem_append.1 hd with hd | hd
            · exact hD d hd q (List.mem_cons_of_mem _ hq)
            · rw [List.mem_singleton.1 hd]; exact hp q hq) hl
        refine ⟨u, ?_, ?_⟩
        · have hcons : setPixels s x y (p :: l.takeWhile fun p => (drawFailure s x y p).isNone) =
              [indexOf x y p] ++ setPixels s x y (l.takeWhile fun p => (drawFailure s x y p).isNone) := by
            simp [setPixels, hb]
          simp only [Option.isNone_none, if_true, hcons, ← List.append_assoc]
          exact hu
        · simp only [hb, if_true]
          exact hrun
      · obtain ⟨u, hu, hrun⟩ := ih ht (fun d hd q hq => hD d hd q (List.mem_cons_of_mem _ hq)) hl
        refine ⟨u, ?_, ?_⟩
        · have hcons : setPixels s x y (p :: l.takeWhile fun p => (drawFailure s x y p).isNone) =
              setPixels s x y (l.takeWhile fun p => (drawFailure s x y p).isNone) := by
            simp [setPixels, hb]
          simp only [Option.isNone_none, if_true, hcons]
          exact hu
        · simp only [hb]
          exact hrun

/-- The loop of a draw, from VF reset: it has toggled exactly `drawnPixels`, and it ends or raises as the first failing check
says. -/
theorem forEach_drawRow_drawn (s : State) (x y n : Nat) :
    ∃ u, Drawn s (drawnPixels s x y n) u ∧
      forEach (drawRow x y) (List.range n) (s.setFlag false) =
        match (drawOrder n).findSome? (drawFailure s x y) with
        | some (f, info) => .stop f info u
        | none => .go u := by
  rw [forEach_drawRow]
  exact forEach_drawPosition x y (drawOrder n) (drawn_nil s) (by simp) (drawOrder_rises x y n)

end Sys2Proof.Machine
end

