-- ==== Sys2Proof/Laws/PerInstr.lean ====
section
/-! SUPPORT. A statement about every instruction, constructor by constructor: some row of the opcode map covers the instruction's
word and cuts the instruction's own operands from it (R84, R85). -/

namespace Sys2Proof.Laws.EncodingFitsARow

/-- A row of the opcode map covers `encode i`, and its fields are the operands of `i`. -/
def Statement (i : Instr) : Prop :=
  ∃ r ∈ opcodeMap, r.covers (encode i) = true ∧ r.build (encode i) = i

theorem fieldX_eq {w : Word} {x : RegIdx} (h : w.toNat / 256 % 16 = x.val) : fieldX w = x := by
  apply Fin.ext
  rw [← h]
  show (w.extractLsb' 8 4).toNat = _
  rw [BitVec.extractLsb'_toNat, Nat.shiftRight_eq_div_pow]

theorem fieldY_eq {w : Word} {y : RegIdx} (h : w.toNat / 16 % 16 = y.val) : fieldY w = y := by
  apply Fin.ext
  rw [← h]
  show (w.extractLsb' 4 4).toNat = _
  rw [BitVec.extractLsb'_toNat, Nat.shiftRight_eq_div_pow]

theorem fieldN_eq {w : Word} {n : Nibble} (h : w.toNat % 16 = n.toNat) : fieldN w = n := by
  apply BitVec.eq_of_toNat_eq
  rw [fieldN, BitVec.extractLsb'_toNat, Nat.shiftRight_zero, ← h]

theorem fieldNN_eq {w : Word} {nn : Byte} (h : w.toNat % 256 = nn.toNat) : fieldNN w = nn := by
  apply BitVec.eq_of_toNat_eq
  rw [fieldNN, BitVec.extractLsb'_toNat, Nat.shiftRight_zero, ← h]

theorem fieldNNN_eq {w : Word} {nnn : Addr} (h : w.toNat % 4096 = nnn.toNat) : fieldNNN w = nnn := by
  apply BitVec.eq_of_toNat_eq
  rw [fieldNNN, BitVec.extractLsb'_toNat, Nat.shiftRight_zero, ← h]

/-- The word of format A (R82). -/
theorem formatA {i : Instr} {f : BitVec 4} {nnn : Addr} {r : OpcodeRow} (hr : r ∈ opcodeMap) (g : Addr → Instr) (hi : i = g nnn)
    (he : encode i = f ++ nnn) (hm : r.mask = 0xF000#16)
    (hc : r.mtch.toNat = f.toNat * 4096) (hb : r.build = fun w => g (fieldNNN w)) :
    Statement i := by
  have hw := wordA_toNat f nnn
  have h1 := f.isLt
  have h2 := nnn.isLt
  refine ⟨r, hr, ?_, ?_⟩
  · rw [covers_iff, hm, hc, he, (and_mask _).2.1, hw]; omega
  · rw [hb, he, hi]; beta_reduce; rw [fieldNNN_eq (nnn := nnn) (by rw [hw]; omega)]

/-- The word of format XK (R82). -/
theorem formatXK {i : Instr} {f : BitVec 4} {x : RegIdx} {nn : Byte} {r : OpcodeRow} (hr : r ∈ opcodeMap)
    (g : RegIdx → Byte → Instr) (hi : i = g x nn) (he : encode i = f ++ regBits x ++ nn)
    (hm : r.mask = 0xF000#16) (hc : r.mtch.toNat = f.toNat * 4096)
    (hb : r.build = fun w => g (fieldX w) (fieldNN w)) : Statement i := by
  have hw := wordXK_toNat f (regBits x) nn
  rw [regBits_toNat] at hw
  have h1 := f.isLt
  have h2 := x.isLt
  have h3 := nn.isLt
  refine ⟨r, hr, ?_, ?_⟩
  · rw [covers_iff, hm, hc, he, (and_mask _).2.1, hw]; omega
  · rw [hb, he, hi]; beta_reduce; rw [fieldX_eq (x := x) (by rw [hw]; omega), fieldNN_eq (nn := nn) (by rw [hw]; omega)]

/-- The word of format XS (R82). -/
theorem formatXS {i : Instr} {f : BitVec 4} {x : RegIdx} {c : Byte} {r : OpcodeRow} (hr : r ∈ opcodeMap) (g : RegIdx → Instr)
    (hi : i = g x) (he : encode i = f ++ regBits x ++ c) (hm : r.mask = 0xF0FF#16)
    (hc : r.mtch.toNat = f.toNat * 4096 + c.toNat)
    (hb : r.build = fun w => g (fieldX w)) : Statement i := by
  have hw := wordXK_toNat f (regBits x) c
  rw [regBits_toNat] at hw
  have h1 := f.isLt
  have h2 := x.isLt
  have h3 := c.isLt
  refine ⟨r, hr, ?_, ?_⟩
  · rw [covers_iff, hm, hc, he, (and_mask _).2.2.2, hw]; omega
  · rw [hb, he, hi]; beta_reduce; rw [fieldX_eq (x := x) (by rw [hw]; omega)]

/-- The word of format XY (R82). -/
theorem formatXY {i : Instr} {f c : BitVec 4} {x y : RegIdx} {r : OpcodeRow} (hr : r ∈ opcodeMap) (g : RegIdx → RegIdx → Instr)
    (hi : i = g x y) (he : encode i = f ++ regBits x ++ regBits y ++ c) (hm : r.mask = 0xF00F#16)
    (hc : r.mtch.toNat = f.toNat * 4096 + c.toNat)
    (hb : r.build = fun w => g (fieldX w) (fieldY w)) : Statement i := by
  have hw := wordXY_toNat f (regBits x) (regBits y) c
  rw [regBits_toNat, regBits_toNat] at hw
  have h1 := f.isLt
  have h2 := x.isLt
  have h3 := y.isLt
  have h4 := c.isLt
  refine ⟨r, hr, ?_, ?_⟩
  · rw [covers_iff, hm, hc, he, (and_mask _).2.2.1, hw]; omega
  · rw [hb, he, hi]; beta_reduce; rw [fieldX_eq (x := x) (by rw [hw]; omega), fieldY_eq (y := y) (by rw [hw]; omega)]

theorem cls : Statement .cls := ⟨opcodeMap[0], List.getElem_mem _, by decide, rfl⟩
theorem ret : Statement .ret := ⟨opcodeMap[1], List.getElem_mem _, by decide, rfl⟩
theorem jp (nnn : Addr) : Statement (.jp nnn) := formatA (r := opcodeMap[2]) (List.getElem_mem _) .jp rfl rfl rfl rfl rfl
theorem call (nnn : Addr) : Statement (.call nnn) := formatA (r := opcodeMap[3]) (List.getElem_mem _) .call rfl rfl rfl rfl rfl
theorem seByte (x : RegIdx) (nn : Byte) : Statement (.seByte x nn) := formatXK (r := opcodeMap[4]) (List.getElem_mem _) .seByte rfl rfl rfl rfl rfl
theorem sneByte (x : RegIdx) (nn : Byte) : Statement (.sneByte x nn) := formatXK (r := opcodeMap[5]) (List.getElem_mem _) .sneByte rfl rfl rfl rfl rfl
theorem seReg (x y : RegIdx) : Statement (.seReg x y) := formatXY (r := opcodeMap[6]) (List.getElem_mem _) .seReg rfl rfl rfl rfl rfl
theorem ldByte (x : RegIdx) (nn : Byte) : Statement (.ldByte x nn) := formatXK (r := opcodeMap[7]) (List.getElem_mem _) .ldByte rfl rfl rfl rfl rfl
theorem addByte (x : RegIdx) (nn : Byte) : Statement (.addByte x nn) := formatXK (r := opcodeMap[8]) (List.getElem_mem _) .addByte rfl rfl rfl rfl rfl
theorem ldReg (x y : RegIdx) : Statement (.ldReg x y) := formatXY (r := opcodeMap[9]) (List.getElem_mem _) .ldReg rfl rfl rfl rfl rfl
theorem orReg (x y : RegIdx) : Statement (.orReg x y) := formatXY (r := opcodeMap[10]) (List.getElem_mem _) .orReg rfl rfl rfl rfl rfl
theorem andReg (x y : RegIdx) : Statement (.andReg x y) := formatXY (r := opcodeMap[11]) (List.getElem_mem _) .andReg rfl rfl rfl rfl rfl
theorem xorReg (x y : RegIdx) : Statement (.xorReg x y) := formatXY (r := opcodeMap[12]) (List.getElem_mem _) .xorReg rfl rfl rfl rfl rfl
theorem addReg (x y : RegIdx) : Statement (.addReg x y) := formatXY (r := opcodeMap[13]) (List.getElem_mem _) .addReg rfl rfl rfl rfl rfl
theorem subReg (x y : RegIdx) : Statement (.subReg x y) := formatXY (r := opcodeMap[14]) (List.getElem_mem _) .subReg rfl rfl rfl rfl rfl
theorem shrReg (x y : RegIdx) : Statement (.shrReg x y) := formatXY (r := opcodeMap[15]) (List.getElem_mem _) .shrReg rfl rfl rfl rfl rfl
theorem subnReg (x y : RegIdx) : Statement (.subnReg x y) := formatXY (r := opcodeMap[16]) (List.getElem_mem _) .subnReg rfl rfl rfl rfl rfl
theorem shlReg (x y : RegIdx) : Statement (.shlReg x y) := formatXY (r := opcodeMap[17]) (List.getElem_mem _) .shlReg rfl rfl rfl rfl rfl
theorem sneReg (x y : RegIdx) : Statement (.sneReg x y) := formatXY (r := opcodeMap[18]) (List.getElem_mem _) .sneReg rfl rfl rfl rfl rfl
theorem ldI (nnn : Addr) : Statement (.ldI nnn) := formatA (r := opcodeMap[19]) (List.getElem_mem _) .ldI rfl rfl rfl rfl rfl
theorem jpV0 (nnn : Addr) : Statement (.jpV0 nnn) := formatA (r := opcodeMap[20]) (List.getElem_mem _) .jpV0 rfl rfl rfl rfl rfl
theorem rnd (x : RegIdx) (nn : Byte) : Statement (.rnd x nn) := formatXK (r := opcodeMap[21]) (List.getElem_mem _) .rnd rfl rfl rfl rfl rfl

theorem drw (x y : RegIdx) (n : Nibble) : Statement (.drw x y n) := by
  have hw := wordXY_toNat 0xD#4 (regBits x) (regBits y) n
  rw [regBits_toNat, regBits_toNat, show (0xD#4).toNat = 13 from rfl] at hw
  have h2 := x.isLt
  have h3 := y.isLt
  have h4 := n.isLt
  have he : encode (.drw x y n) = 0xD#4 ++ regBits x ++ regBits y ++ n := rfl
  refine ⟨opcodeMap[22], List.getElem_mem _, ?_, ?_⟩
  · rw [covers_iff, he]
    show BitVec.toNat (_ &&& 0xF000#16) = 0xD000
    rw [(and_mask _).2.1, hw]; omega
  · show Instr.drw (fieldX _) (fieldY _) (fieldN _) = _
    rw [he, fieldX_eq (x := x) (by rw [hw]; omega), fieldY_eq (y := y) (by rw [hw]; omega),
      fieldN_eq (n := n) (by rw [hw]; omega)]

theorem skp (x : RegIdx) : Statement (.skp x) := formatXS (r := opcodeMap[23]) (List.getElem_mem _) .skp rfl rfl rfl rfl rfl
theorem sknp (x : RegIdx) : Statement (.sknp x) := formatXS (r := opcodeMap[24]) (List.getElem_mem _) .sknp rfl rfl rfl rfl rfl
theorem ldDt (x : RegIdx) : Statement (.ldDt x) := formatXS (r := opcodeMap[25]) (List.getElem_mem _) .ldDt rfl rfl rfl rfl rfl
theorem ldKey (x : RegIdx) : Statement (.ldKey x) := formatXS (r := opcodeMap[26]) (List.getElem_mem _) .ldKey rfl rfl rfl rfl rfl

end Sys2Proof.Laws.EncodingFitsARow
end

