-- ==== Sys2Proof/Tests/Slice0.lean ====
section
/-! SUPPORT. Tests: words written out from the bit patterns of 30_encoding.md, single steps whose expected values are those of
95_test_vectors.md, and, for every statement with hypotheses, a concrete state and operands that meet them together. -/

namespace Sys2Proof.Tests

open Sys2Proof Sys2Proof.Machine

/-! Helpers: a state with some registers set, one TICK on one word, and a check of the state it answers. -/

/-- The state with these registers written. -/
def regs (l : List (RegIdx × Byte)) (s : State) : State := l.foldl (fun t p => t.setReg p.1 p.2) s

/-- One TICK, offering the draw `r`, with the word `w` at `PC`. -/
def tickOn (w : Word) (s : State) (r : Draw := 0) : Outcome := step { s.withFetchWord 16 w.toNat with inputs := [.tick r] }

/-- The step answers a next state and the check holds of it. -/
def gives (o : Outcome) (p : State → Bool) : Bool :=
  match o with
  | .next t => p t
  | .fault _ => false
  | .refused _ => false

/-- The reset state with these events to come. -/
def withInputs (l : List Input) : State := { State.reset with inputs := l }

/-! Well-formedness. An instruction's fields are typed by their widths, so no ill-formed instruction can be written down; the one
check that can refuse is the loader's on the image (R243). -/

theorem test_image_of_3584_bytes_is_accepted : imageWellFormed (List.replicate 3584 0) = true := by decide +kernel

theorem test_image_of_3585_bytes_is_refused : imageWellFormed (List.replicate 3585 0) = false := by decide +kernel

theorem test_oversized_image_boots_nothing : bootInputs Config.defaultFont (List.replicate 3585 0) = none := by
  decide +kernel

/-- The operand 0xF is allowed everywhere (R83). -/
theorem test_highest_operands_are_well_formed : (Instr.drw 15 15 15).WellFormed = true := by decide

/-! Decoding: one word for each row, its bits written from the pattern of the row in R85, family nibble first. -/

theorem test_decode_cls : decode 0b0000000011100000#16 = some .cls := by decide
theorem test_decode_ret : decode 0b0000000011101110#16 = some .ret := by decide
theorem test_decode_jp : decode 0b0001101010111100#16 = some (.jp 0xABC) := by decide
theorem test_decode_call : decode 0b0010000000000000#16 = some (.call 0) := by decide
theorem test_decode_seByte : decode 0b0011101001111111#16 = some (.seByte 0xA 0x7F) := by decide
theorem test_decode_sneByte : decode 0b0100111100000000#16 = some (.sneByte 0xF 0x00) := by decide
theorem test_decode_seReg : decode 0b0101101010110000#16 = some (.seReg 0xA 0xB) := by decide
theorem test_decode_ldByte : decode 0b0110110000010010#16 = some (.ldByte 0xC 0x12) := by decide
theorem test_decode_addByte : decode 0b0111000000000001#16 = some (.addByte 0 0x01) := by decide
theorem test_decode_ldReg : decode 0b1000101010110000#16 = some (.ldReg 0xA 0xB) := by decide
theorem test_decode_orReg : decode 0b1000101010110001#16 = some (.orReg 0xA 0xB) := by decide
theorem test_decode_andReg : decode 0b1000101010110010#16 = some (.andReg 0xA 0xB) := by decide
theorem test_decode_xorReg : decode 0b1000101010110011#16 = some (.xorReg 0xA 0xB) := by decide
theorem test_decode_addReg : decode 0b1000101010110100#16 = some (.addReg 0xA 0xB) := by decide
theorem test_decode_subReg : decode 0b1000101010110101#16 = some (.subReg 0xA 0xB) := by decide
theorem test_decode_shrReg : decode 0b1000101010110110#16 = some (.shrReg 0xA 0xB) := by decide
theorem test_decode_subnReg : decode 0b1000101010110111#16 = some (.subnReg 0xA 0xB) := by decide
theorem test_decode_shlReg : decode 0b1000101010111110#16 = some (.shlReg 0xA 0xB) := by decide
theorem test_decode_sneReg : decode 0b1001101010110000#16 = some (.sneReg 0xA 0xB) := by decide
theorem test_decode_ldI : decode 0b1010000100100011#16 = some (.ldI 0x123) := by decide
theorem test_decode_jpV0 : decode 0b1011000100100011#16 = some (.jpV0 0x123) := by decide
theorem test_decode_rnd : decode 0b1100000111111111#16 = some (.rnd 1 0xFF) := by decide
theorem test_decode_drw : decode 0b1101000100100101#16 = some (.drw 1 2 5) := by decide
theorem test_decode_skp : decode 0b1110000110011110#16 = some (.skp 1) := by decide
theorem test_decode_sknp : decode 0b1110000110100001#16 = some (.sknp 1) := by decide
theorem test_decode_ldDt : decode 0b1111000100000111#16 = some (.ldDt 1) := by decide
theorem test_decode_ldKey : decode 0b1111000100001010#16 = some (.ldKey 1) := by decide

/-- Unsupported words of the table of section 2.1. -/
theorem test_decode_unsupported :
    [0x0000, 0x00E1, 0x00EF, 0x00FE, 0x01E0, 0x0FFF, 0x5AB1, 0x5ABF, 0x8AB8, 0x8ABD, 0x8ABF, 0x9AB1, 0xE19F, 0xE1A0,
      0xF115, 0xF118, 0xF11E, 0xF129, 0xF133, 0xF155, 0xF165, 0xF1FF].all (fun w => (decode w).isNone) = true := by
  decide

/-- The high byte comes first, and an unsupported word is named with the bytes after it (R63, R86). -/
theorem test_decode_bytes :
    decodeBytes [0x12, 0x34, 0x56] = .instr (.jp 0x234) [0x56] ∧ decodeBytes [0x81, 0x28] = .unsupported 0x8128 [] ∧
      decodeBytes [0x12] = .truncated := by decide

/-- The table numbers a word's bits from the least significant bit. -/
theorem test_decode_table_word :
    decodeTableWord 16 0xD125 = some (.drw 1 2 5) ∧ decodeTableWord 16 0xF115 = none := by decide

/-- The encoder writes the same words. -/
theorem test_encode :
    encode (.jp 0xABC) = 0x1ABC ∧ encode (.sneByte 0xF 0) = 0x4F00 ∧ encode (.shlReg 0xA 0xB) = 0x8ABE ∧
      encode (.drw 1 2 5) = 0xD125 ∧ encode (.sknp 1) = 0xE1A1 ∧ encode (.ldKey 1) = 0xF10A := by decide

/-! Fetch, unsupported words, timers (section 2.2). -/

/-- An odd `PC` fetches from two consecutive bytes (R65). -/
theorem test_fetch_at_odd_pc :
    gives (tickOn 0x612A { State.reset with pc := 0x203 }) (fun t => t.reg 1 == 0x2A && t.pc == 0x205) = true := by
  decide

theorem test_fetch_of_the_last_word :
    gives (tickOn 0x6001 { State.reset with pc := 0xFFE })
      (fun t => t.reg 0 == 1 && t.pc == 0x1000 && t.mode == .run) = true := by decide

theorem test_fetch_above_4094_halts :
    gives (step { State.reset with pc := 0xFFF }) (fun t => t.fault == some .memBounds && t.mode == .halted &&
      t.pc == 0xFFF && t.outputs == [.fault .memBounds (some 0xFFF)]) = true := by decide

theorem test_unsupported_word :
    gives (tickOn 0x8128 { State.reset with dt := 2, st := 1 }) (fun t => t.outputs == [.diag 0x8128] && t.pc == 0x202 &&
      t.dt == 1 && t.st == 0 && t.v == State.reset.v) = true := by decide

/-- With nothing loaded, the first tick after reset runs the unsupported word 0000. -/
theorem test_first_tick_with_nothing_loaded :
    gives (step State.reset) (fun t => t.outputs == [.diag 0] && t.pc == 0x202 && t.mode == .run) = true := by
  decide

theorem test_sound_follows_the_timer :
    gives (tickOn 0x6000 { State.reset with st := 0xFF }) (fun t => t.st == 0xFE && t.soundOn) = true ∧
      gives (tickOn 0x6000 { State.reset with st := 1 }) (fun t => t.st == 0 && !t.soundOn) = true := by
  decide

/-! Control flow (section 2.3). -/

theorem test_jp : gives (tickOn 0x1FFF State.reset) (fun t => t.pc == 0xFFF && t.mode == .run) = true := by decide

theorem test_call_pushes_the_next_address :
    gives (tickOn 0x2206 State.reset) (fun t => t.stack[0] == 0x202 && t.sp == 1 && t.pc == 0x206) = true := by
  decide

theorem test_call_on_the_full_stack :
    gives (tickOn 0x2300 { State.reset with sp := 16 }) (fun t => t.fault == some .stackOverflow && t.mode == .halted &&
      t.pc == 0x202 && t.sp == 16 && t.stack == State.reset.stack) = true := by decide

theorem test_ret_clears_the_slot :
    gives (tickOn 0x00EE { State.reset with sp := 16, stack := State.reset.stack.set 15 0xABC })
      (fun t => t.pc == 0xABC && t.sp == 15 && t.stack[15] == 0) = true := by decide

theorem test_ret_on_the_empty_stack :
    gives (tickOn 0x00EE { State.reset with pc := 0x206, stack := State.reset.stack.set 0 0x300 })
      (fun t => t.fault == some .stackUnderflow && t.pc == 0x208 && t.sp == 0 && t.stack[0] == 0x300) = true := by
  decide

theorem test_seByte :
    gives (tickOn 0x3F01 (regs [(15, 1)] State.reset)) (fun t => t.pc == 0x204) = true ∧
      gives (tickOn 0x3001 State.reset) (fun t => t.pc == 0x202) = true := by decide

theorem test_sneByte :
    gives (tickOn 0x4311 (regs [(3, 0x10)] State.reset)) (fun t => t.pc == 0x204) = true ∧
      gives (tickOn 0x4310 (regs [(3, 0x10)] State.reset)) (fun t => t.pc == 0x202) = true := by decide

theorem test_seReg :
    gives (tickOn 0x5120 (regs [(1, 7), (2, 7)] State.reset)) (fun t => t.pc == 0x204) = true ∧
      gives (tickOn 0x5120 (regs [(1, 7), (2, 8)] State.reset)) (fun t => t.pc == 0x202) = true := by decide

theorem test_sneReg :
    gives (tickOn 0x9120 (regs [(1, 7), (2, 8)] State.reset)) (fun t => t.pc == 0x204) = true ∧
      gives (tickOn 0x9110 (regs [(1, 7)] State.reset)) (fun t => t.pc == 0x202) = true := by decide

theorem test_jpV0 : gives (tickOn 0xBFFF (regs [(0, 0xFF)] State.reset)) (fun t => t.pc == 0x10FE) = true := by
  decide

/-! Immediate loads (section 2.4). -/

theorem test_ldByte : gives (tickOn 0x6FFF State.reset) (fun t => t.reg 15 == 0xFF) = true := by decide

theorem test_addByte_wraps :
    gives (tickOn 0x730A (regs [(3, 0xFA), (15, 9)] State.reset)) (fun t => t.reg 3 == 4 && t.reg 15 == 9) = true := by
  decide

theorem test_ldI : gives (tickOn 0xAFFF State.reset) (fun t => t.regI == 0x0FFF) = true := by decide

/-- The draw 0xA6 is the byte 0xA7. -/
theorem test_rnd :
    gives (tickOn 0xC10F State.reset 0xA6) (fun t => t.reg 1 == 7) = true ∧
      gives (tickOn 0xC1FF State.reset 0xFE) (fun t => t.reg 1 == 0xFF) = true := by decide

/-! The ALU (section 2.5). -/

/-- One tick on a word with `V[1]`, `V[2]` and VF given, and the `V[1]` and VF it leaves. -/
def alu (w : Word) (a b f a' f' : Byte) : Bool :=
  gives (tickOn w (regs [(1, a), (2, b), (15, f)] State.reset)) fun t => t.reg 1 == a' && t.reg 2 == b && t.reg 15 == f'

theorem test_ldReg : alu 0x8120 0xF3 0x3C 9 0x3C 9 = true := by decide
theorem test_orReg : alu 0x8121 0xF3 0x3C 9 0xFF 9 = true := by decide
theorem test_andReg : alu 0x8122 0xF3 0x3C 9 0x30 9 = true := by decide
theorem test_xorReg : alu 0x8123 0xF3 0x3C 9 0xCF 9 = true := by decide
theorem test_addReg : alu 0x8124 0xC8 0x64 0 0x01 1 = true ∧ alu 0x8124 0xFE 1 9 0xFF 0 = true := by decide
theorem test_subReg : alu 0x8125 0x64 0xC8 9 0x9C 0 = true ∧ alu 0x8125 7 7 9 0 1 = true := by decide
theorem test_shrReg : alu 0x8126 3 0xFF 9 0x7F 1 = true ∧ alu 0x8126 4 5 9 2 0 = true := by decide
theorem test_subnReg : alu 0x8127 0xC8 0x64 9 0x9C 0 = true ∧ alu 0x8127 7 7 9 0 1 = true := by decide
theorem test_shlReg : alu 0x812E 0x64 0xC8 9 0x90 1 = true ∧ alu 0x812E 0 5 9 0xA 0 = true := by decide

/-- VF as an operand, rows of the table of section 2.5 (`V[2]` is the Y operand `b`). -/
theorem test_vf_as_destination :
    gives (tickOn 0x8F24 (regs [(15, 0xC8), (2, 0x64)] State.reset)) (fun t => t.reg 15 == 1) = true ∧
      gives (tickOn 0x8F25 (regs [(15, 0x64), (2, 0xC8)] State.reset)) (fun t => t.reg 15 == 0x38) = true ∧
      gives (tickOn 0x8F27 (regs [(15, 5), (2, 5)] State.reset)) (fun t => t.reg 15 == 4) = true ∧
      gives (tickOn 0x8FFE (regs [(15, 0x81)] State.reset)) (fun t => t.reg 15 == 2) = true := by decide

theorem test_vf_as_source :
    gives (tickOn 0x81F5 (regs [(1, 0xC8), (15, 0x64)] State.reset)) (fun t => t.reg 1 == 0xC7 && t.reg 15 == 1) = true ∧
      gives (tickOn 0x81F6 (regs [(1, 7), (15, 0x81)] State.reset)) (fun t => t.reg 1 == 0 && t.reg 15 == 1) = true ∧
      gives (tickOn 0x81F7 (regs [(1, 0x64), (15, 0xC8)] State.reset)) (fun t => t.reg 1 == 0x9D && t.reg 15 == 1) = true := by
  decide

/-! The display (section 2.6). -/

/-- A state whose `I` is 0x206, with one sprite byte there and `V[0]`, `V[1]` given. -/
def sprite (b x y : Byte) : State := regs [(0, x), (1, y)] { State.reset with regI := 0x206, mem := [(0x206, b)] }

theorem test_cls :
    gives (tickOn 0x00E0 (regs [(15, 7)] { State.reset with fb := BitVec.allOnes 2048 }))
      (fun t => t.fb == 0 && t.shouldRedraw && t.reg 15 == 7) = true := by decide +kernel

/-- A row that starts at x = 62 spills into the next line: pixels (62,0), (63,0), (0,1) to (5,1) (R172). -/
theorem test_drw_spills_into_the_next_row :
    gives (tickOn 0xD011 (sprite 0xFF 62 0)) (fun t => t.fb == BitVec.ofNat 2048 (0xFF * 2 ^ 62) && t.reg 15 == 0 &&
      t.shouldRedraw) = true := by decide +kernel

/-- The part of a sprite before the failing check stays: (60,31) to (63,31) set, then `FbBounds` with info 0x800 (R212). -/
theorem test_drw_below_the_screen :
    gives (tickOn 0xD011 (sprite 0xFF 60 31)) (fun t => t.fb == BitVec.ofNat 2048 (0xF * 2 ^ 2044) &&
      t.fault == some .fbBounds && t.mode == .halted && t.outputs == [.fault .fbBounds (some 0x800)] &&
      t.reg 15 == 0 && !t.shouldRedraw) = true := by decide +kernel

/-! Keypad and timers (section 2.7). -/

/-- A state with `V[0]` given and key 15 up or down. -/
def keyState (b : Byte) (down : Bool) : State := { regs [(0, b)] State.reset with keypad := State.reset.keypad.set 15 down }

theorem test_skp :
    gives (tickOn 0xE09E (keyState 15 true)) (fun t => t.pc == 0x204) = true ∧
      gives (tickOn 0xE09E (keyState 16 true))
        (fun t => t.pc == 0x202 && t.fault == some .keyBounds && t.outputs == [.fault .keyBounds (some 16)]) = true := by
  decide

theorem test_sknp :
    gives (tickOn 0xE0A1 (keyState 15 false)) (fun t => t.pc == 0x204) = true ∧
      gives (tickOn 0xE0A1 (keyState 15 true)) (fun t => t.pc == 0x202) = true := by decide

/-- The timer is read before the tick's timer step (R192). -/
theorem test_ldDt :
    gives (tickOn 0xF307 { State.reset with dt := 3 }) (fun t => t.reg 3 == 3 && t.dt == 2 && t.pc == 0x202) = true := by
  decide

theorem test_ldKey :
    gives (tickOn 0xF10A { State.reset with dt := 5, st := 2 }) (fun t => t.mode == .waitKey && t.waitX == 1 &&
      t.dt == 5 && t.st == 2 && t.pc == 0x202) = true := by decide

/-- A state in the key wait of FX0A with X = 1. -/
def waiting (e : Input) : State :=
  { State.reset with mode := .waitKey, waitX := 1, dt := 5, st := 2, started := true, inputs := [e] }

theorem test_key_down_ends_the_wait :
    gives (step (waiting (.keyDown 7))) (fun t => t.keypad[7] && t.reg 1 == 7 && t.mode == .run && t.dt == 4 &&
      t.st == 1) = true := by decide

theorem test_key_up_does_not_end_the_wait :
    gives (step (waiting (.keyUp 3))) (fun t => !t.keypad[3] && t.mode == .waitKey && t.dt == 5) = true := by
  decide

theorem test_present :
    gives (step { withInputs [.present, .present] with shouldRedraw := true, fb := 5 })
      (fun t => t.outputs == [.frame 5] && !t.shouldRedraw && t.fb == 5) = true := by decide +kernel

/-- Boot places the image at 0x200, and a LOAD after the first TICK is refused (R243, log 5). -/
theorem test_load :
    gives (step (withInputs [.load 0x200 0x12])) (fun t => t.mem == [(0x200, 0x12)]) = true ∧
      (match step { withInputs [.load 0x200 0x12] with started := true } with
        | .refused .loadAfterFirstTick => true
        | _ => false) = true := by decide

/-- The booted state of the image of vector S8, with its bytes from 0x200 on. -/
theorem test_boot :
    (State.booted Config.defaultFont [0x12, 0x34, 0x56, 0x78]).mem.read 0x203 = 0x78 ∧
      (State.booted Config.defaultFont [0x12, 0x34, 0x56, 0x78]).mem.read 0x204 = 0 ∧
      (State.booted Config.defaultFont [0x12, 0x34, 0x56, 0x78]).mem.read 0x23 = 0xF0 ∧
      (State.booted Config.defaultFont [0x12, 0x34, 0x56, 0x78]).mem.wf = true := by decide

theorem test_reset_leaves_the_fault :
    gives (step { withInputs [.reset] with mode := .halted, fault := some .keyBounds, pc := 5, dt := 3, sp := 2 })
      (fun t => t.mode == .run && t.fault == none && t.pc == 0x200 && t.dt == 0 && t.sp == 0) = true := by decide

/-- `withFetchWord` runs exactly the word it places. -/
theorem test_withFetchWord :
    gives (step (State.reset.withFetchWord 16 0x6A2B)) (fun t => t.reg 10 == 0x2B && t.pc == 0x202) = true := by
  decide

/-! Witnesses: for every statement with hypotheses, a state and operands that meet them all, and the boundary values of its
clauses. -/

/-- A state in `RUN` with the word `w` at `PC` and these events to come. -/
def ready (w : Word) (l : List Input) : State := { State.reset.withFetchWord 16 w.toNat with inputs := l }

theorem witness_DecodeOfEncode : (Instr.drw 15 15 15).WellFormed = true := by decide

theorem witness_EncodeOfDecode : decode 0xDFFF = some (.drw 15 15 15) := by decide

theorem witness_OpcodeMapRows : (opcodeMap.get ⟨0, by decide⟩).covers 0x00E0 = true := by decide

theorem witness_Fetch : ({ State.reset with pc := 4094 } : State).pc.toNat ≤ 4094 ∧
    4094 < ({ State.reset with pc := 4095 } : State).pc.toNat := by decide

/-- Both forms of the next TICK. -/
theorem witness_NextTick :
    NextTick (ready 0x6A2B [.tick 254, .present]) 254 [.present] 0 ∧
      NextTick (ready 0x6A2B []) (Config.randomDraw 0) [] 1 := ⟨.inl ⟨rfl, rfl⟩, .inr ⟨rfl, rfl, rfl, rfl⟩⟩

theorem witness_TickIsNext : TickIsNext (ready 0x6A2B []) ∧ TickIsNext (ready 0x6A2B [.tick 3]) := ⟨trivial, 3, rfl⟩

theorem witness_StepRunsTheDecodedInstruction :
    NextTick (ready 0x6A2B [.tick 254]) 254 [] 0 ∧ (ready 0x6A2B [.tick 254]).mode = .run ∧
      (ready 0x6A2B [.tick 254]).pc.toNat ≤ 4094 ∧
      decode (wordOfBytes ((ready 0x6A2B [.tick 254]).mem.read (ready 0x6A2B [.tick 254]).pc.toNat)
        ((ready 0x6A2B [.tick 254]).mem.read ((ready 0x6A2B [.tick 254]).pc.toNat + 1))) = some (.ldByte 10 0x2B) ∧
      (Instr.ldByte 10 0x2B).WellFormed = true := ⟨.inl ⟨rfl, rfl⟩, rfl, by decide, by decide, by decide⟩

theorem witness_UnsupportedWord :
    NextTick (ready 0xF115 [.tick 1]) 1 [] 0 ∧ (ready 0xF115 [.tick 1]).mode = .run ∧
      (ready 0xF115 [.tick 1]).pc.toNat ≤ 4094 ∧ decode (ready 0xF115 [.tick 1]).nextWord = none :=
  ⟨.inl ⟨rfl, rfl⟩, rfl, by decide, by decide⟩

theorem witness_FetchBeyondMemory :
    NextTick { withInputs [.tick 1] with pc := 4095 } 1 [] 0 ∧ ({ withInputs [.tick 1] with pc := 4095 } : State).mode = .run ∧
      4094 < ({ withInputs [.tick 1] with pc := 4095 } : State).pc.toNat := ⟨.inl ⟨rfl, rfl⟩, rfl, by decide⟩

theorem witness_TickOutsideRun :
    (waiting (.tick 9)).mode ≠ .run ∧ (waiting (.tick 9)).inputs = [.tick 9] ∧
      ({ waiting (.tick 9) with mode := .halted, inputs := [] } : State).mode ≠ .run ∧
      ({ waiting (.tick 9) with mode := .halted, inputs := [] } : State).inputs = [] := by decide

theorem witness_NetMovementOfPc :
    TickIsNext (ready 0x1ABC []) ∧ (ready 0x1ABC []).mode = .run ∧ (ready 0x1ABC []).pc.toNat ≤ 4094 ∧
      pcAfterTick (ready 0x1ABC []) (decode (ready 0x1ABC []).nextWord) = 0xABC := by
  exact ⟨trivial, rfl, by decide, by decide⟩

/-- A completed TICK, a KEY_DOWN that ends a wait, and a step that is neither. -/
theorem witness_Timers :
    gives (step (ready 0x6A2B [.tick 0])) (fun t => t.mode == .run) = true ∧
      (ready 0x6A2B [.tick 0]).inputs.head? ≠ some .reset ∧
      gives (step (waiting (.keyDown 7))) (fun t => t.mode == .run) = true ∧
      (waiting (.keyDown 7)).inputs.head? = some (.keyDown 7) ∧
      gives (step (ready 0xF10A [.tick 0])) (fun t => t.mode == .waitKey) = true := by decide

theorem witness_RetPops :
    0 < ({ State.reset with sp := 1 } : State).sp.val ∧ 0 < ({ State.reset with sp := 16 } : State).sp.val ∧
      State.reset.sp.val = 0 := by decide

theorem witness_CallPushes :
    State.reset.sp.val < 16 ∧ ({ State.reset with sp := 15 } : State).sp.val < 16 ∧
      ({ State.reset with sp := 16 } : State).sp.val = 16 := by decide

/-- Two calls with an instruction between them, two returns with another. -/
theorem witness_ReturnsUndoCalls :
    ([Instr.call 0x300, .ldByte 1 5, .call 0x400].head? = some (.call 0x300)) ∧
      [Instr.ret, .cls, .ret].getLast? = some .ret ∧
      (∀ i ∈ [Instr.call 0x300, .ldByte 1 5, .call 0x400], isRet i = false) ∧
      (∀ i ∈ [Instr.ret, .cls, .ret], isCall i = false) ∧
      [Instr.call 0x300, .ldByte 1 5, .call 0x400].countP isCall = [Instr.ret, .cls, .ret].countP isRet ∧
      [Instr.call 0x300, .ldByte 1 5, .call 0x400].countP isCall ≤ 16 - State.reset.sp.val ∧
      (∀ n : Fin 16, State.reset.sp.val ≤ n.val → State.reset.stack[n.val] = 0) := by decide

theorem witness_Rnd :
    NextTick (ready 0xC10F [.tick 0xA6]) 0xA6 [] 0 ∧ (ready 0xC10F [.tick 0xA6]).mode = .run ∧
      (ready 0xC10F [.tick 0xA6]).pc.toNat ≤ 4094 ∧ decode (ready 0xC10F [.tick 0xA6]).nextWord = some (.rnd 1 0x0F) :=
  ⟨.inl ⟨rfl, rfl⟩, rfl, by decide, by decide⟩

theorem witness_LdDt :
    NextTick (ready 0xF307 [.tick 0]) 0 [] 0 ∧ (ready 0xF307 [.tick 0]).mode = .run ∧
      (ready 0xF307 [.tick 0]).pc.toNat ≤ 4094 ∧ decode (ready 0xF307 [.tick 0]).nextWord = some (.ldDt 3) :=
  ⟨.inl ⟨rfl, rfl⟩, rfl, by decide, by decide⟩

/-- The clause `x ≠ 15` of the flag-writing instructions, and the two fields of the aliasing table. -/
theorem witness_FieldsThatAreNotVf : (1 : RegIdx) ≠ 15 ∧ (2 : RegIdx) ≠ 15 := by decide

/-- A draw whose last set bit is pixel 2047: 0xF0 at (60, 31). -/
theorem witness_DrawFits : DrawFits (sprite 0xF0 60 31) ((sprite 0xF0 60 31).reg 0).toNat ((sprite 0xF0 60 31).reg 1).toNat
    (1 : Nibble).toNat ∧ (0 : RegIdx) ≠ 15 ∧ (1 : RegIdx) ≠ 15 := by
  refine ⟨⟨by decide, ?_⟩, by decide, by decide⟩
  rintro p ⟨row, hrow, col, hcol, hb, rfl⟩
  have h : ∀ row < 1, ∀ col < 8, SpriteBitSet (sprite 0xF0 60 31) row col = true → 60 + col + (31 + row) * 64 ≤ 2047 := by
    decide
  exact h row hrow col hcol hb

/-- The clauses of the draw twice: an addressed pixel that is lit, and one that is not. -/
theorem witness_DrawAddresses : Addresses (sprite 0x80 0 0) 0 0 1 0 ∧ (sprite 0x80 0 0).pixel 0 = false ∧
    ({ sprite 0x80 0 0 with fb := 1 } : State).pixel 0 = true := by
  refine ⟨⟨0, by decide, 0, by decide, ?_, rfl⟩, ?_, ?_⟩ <;> decide +kernel

theorem witness_Present :
    (withInputs [.present]).inputs = [.present] ∧ ({ withInputs [.present] with shouldRedraw := true } : State).mode ≠ .halted ∧
      ({ withInputs [.present] with shouldRedraw := true } : State).shouldRedraw = true ∧
      (withInputs [.present]).shouldRedraw = false := by decide

theorem witness_KeySkips : ((keyState 15 true).reg 0).toNat < 16 ∧ 15 < ((keyState 16 true).reg 0).toNat := by
  decide

theorem witness_KeyWait :
    NextTick (ready 0xF10A [.tick 0, .keyDown 7]) 0 [.keyDown 7] 0 ∧ (ready 0xF10A [.tick 0, .keyDown 7]).mode = .run ∧
      (ready 0xF10A [.tick 0, .keyDown 7]).pc.toNat ≤ 4094 ∧
      decode (ready 0xF10A [.tick 0, .keyDown 7]).nextWord = some (.ldKey 1) :=
  ⟨.inl ⟨rfl, rfl⟩, rfl, by decide, by decide⟩

theorem witness_KeyEvents :
    (withInputs [.keyUp 15]).mode ≠ .halted ∧ (withInputs [.keyUp 15]).inputs = [.keyUp 15] ∧
      (withInputs [.keyDown 15]).mode = .run ∧ (withInputs [.keyDown 15]).inputs = [.keyDown 15] ∧
      (waiting (.keyDown 15)).mode = .waitKey ∧ (waiting (.keyDown 15)).inputs = [.keyDown 15] ∧
      ({ waiting (.keyUp 0) with mode := .halted } : State).mode = .halted ∧
      ({ waiting (.keyUp 0) with mode := .halted } : State).inputs = [.keyUp 0] := by decide

theorem witness_FaultSequence :
    ({ withInputs [.present] with mode := .halted } : State).mode = .halted ∧ Input.present ≠ .reset ∧
      ({ withInputs [.reset] with mode := .halted } : State).inputs = [.reset] := by decide

/-- An instruction that raises its fault, and the same instruction completing, both in `RUN`. -/
theorem witness_InstructionsFault :
    State.reset.mode = .run ∧ (∀ x y n, Instr.ret ≠ .drw x y n) ∧
      gives (exec .ret State.reset) (fun t => t.fault == some .stackUnderflow) = true ∧
      gives (exec .ret { State.reset with sp := 16 }) (fun t => t.fault == none) = true :=
  ⟨rfl, (nofun), by decide, by decide⟩

/-- An instruction answers a next state: the hypothesis of the statements on the writers, on memory, on what is not read. -/
theorem witness_ExecAnswersNext : ∃ t, exec (.ldByte 1 5) State.reset = .next t ∧ destReg (.ldByte 1 5) = some 1 ∧
    t.reg 1 = 5 ∧ t.reg 2 = 0 := ⟨_, rfl, rfl, by decide, by decide⟩

theorem witness_LateLoad :
    ({ withInputs [.load 0 1] with started := true } : State).started = true ∧
      ({ withInputs [.load 0 1] with started := true } : State).mode ≠ .halted ∧
      ({ withInputs [.load 0 1] with started := true } : State).inputs.head? = some (.load 0 1) := by decide

theorem witness_MemoryIsConstant :
    (waiting (.keyDown 7)).started = true ∧ (waiting (.keyDown 7)).inputs.head? ≠ some .reset ∧
      gives (step (waiting (.keyDown 7))) (fun _ => true) = true := by decide

/-- Steps that change the keypad, by a key pressed and by one released, end a key wait, clear the redraw flag, set it, write
memory. -/
theorem witness_OutsideAgents :
    gives (step (withInputs [.keyDown 7])) (fun t => t.keypad != State.reset.keypad) = true ∧
      gives (step { withInputs [.keyUp 7] with keypad := State.reset.keypad.set 7 true })
        (fun t => t.keypad == State.reset.keypad) = true ∧
      gives (step (waiting (.keyDown 7))) (fun t => t.mode == .run) = true ∧
      gives (step (ready 0x00E0 [.tick 0])) (fun t => t.shouldRedraw) = true ∧ (ready 0x00E0 [.tick 0]).shouldRedraw = false ∧
      gives (step { withInputs [.present] with shouldRedraw := true }) (fun t => !t.shouldRedraw) = true ∧
      gives (step (withInputs [.load 4095 1])) (fun t => t.mem != []) = true := by decide

theorem witness_Reset : ({ withInputs [.reset, .tick 3] with mode := .halted } : State).inputs = [.reset, .tick 3] := rfl

theorem witness_Load :
    (withInputs [.load 4095 0]).inputs = [.load 4095 0] ∧ (withInputs [.load 4095 0]).started = false ∧
      (withInputs [.load 4095 0]).mode ≠ .halted ∧ (withInputs [.load 4095 0]).mem.wf = true := by decide

theorem witness_Boot : (List.replicate 3584 (0xFF : Byte)).length ≤ 3584 ∧ 3584 < (List.replicate 3585 (0xFF : Byte)).length := by
  decide +kernel

/-- A memory with bytes inside and outside the font, in `RUN` and in a key wait before the first TICK. -/
theorem witness_Font :
    ({ State.reset with mem := [(0, 1), (79, 2), (80, 4), (4095, 3)] } : State).started = false ∧
      ({ State.reset with mem := [(0, 1), (79, 2), (80, 4), (4095, 3)] } : State).mode ≠ .halted ∧
      ({ State.reset with mode := .waitKey } : State).mode ≠ .halted ∧
      Memory.wf [(0, 1), (79, 2), (80, 4), (4095, 3)] = true := by decide

theorem witness_Settled : (ready 0x1200 [.tick 0]).settled = true ∧ NextTick (ready 0x1200 [.tick 0]) 0 [] 0 :=
  ⟨by decide, .inl ⟨rfl, rfl⟩⟩

/-- A state that meets the invariant, with a slot in use, and a step from it. -/
theorem witness_Inv :
    Inv { ready 0x00EE [.tick 0] with sp := 1, stack := State.reset.stack.set 0 4096 } ∧
      gives (step { ready 0x00EE [.tick 0] with sp := 1, stack := State.reset.stack.set 0 4096 })
        (fun t => t.pc == 4096 && t.sp == 0) = true := by
  refine ⟨⟨⟨rfl, rfl⟩, by decide, by decide, ?_, ⟨by decide, by decide⟩, by decide⟩, by decide⟩
  unfold StackInv
  decide

end Sys2Proof.Tests
end

section
/-! PROOFS of the family 00_scope.md: each operand field as a number (R12). The laws of Sys2Proof/Laws/PerInstr.lean
say that a field equals any operand with the field's number; here each is applied to the operand built from that number. -/

namespace Sys2Proof

open Laws.EncodingFitsARow

/-- `X = w[11:8]` (R12). -/
theorem fieldX_val (w : Word) : (fieldX w).val = w.toNat / 256 % 16 :=
  congrArg Fin.val (fieldX_eq (x := ⟨w.toNat / 256 % 16, Nat.mod_lt _ (by decide)⟩) rfl)

/-- `Y = w[7:4]` (R12). -/
theorem fieldY_val (w : Word) : (fieldY w).val = w.toNat / 16 % 16 :=
  congrArg Fin.val (fieldY_eq (y := ⟨w.toNat / 16 % 16, Nat.mod_lt _ (by decide)⟩) rfl)

/-- `N = w[3:0]` (R12). -/
theorem fieldN_toNat (w : Word) : (fieldN w).toNat = w.toNat % 16 :=
  congrArg BitVec.toNat (fieldN_eq (n := .ofNatLT (w.toNat % 16) (Nat.mod_lt _ (by decide))) rfl)

/-- `NN = w[7:0]` (R12). -/
theorem fieldNN_toNat (w : Word) : (fieldNN w).toNat = w.toNat % 256 :=
  congrArg BitVec.toNat (fieldNN_eq (nn := .ofNatLT (w.toNat % 256) (Nat.mod_lt _ (by decide))) rfl)

/-- `NNN = w[11:0]` (R12). -/
theorem fieldNNN_toNat (w : Word) : (fieldNNN w).toNat = w.toNat % 4096 :=
  congrArg BitVec.toNat (fieldNNN_eq (nnn := .ofNatLT (w.toNat % 4096) (Nat.mod_lt _ (by decide))) rfl)

/-- Settles O5: one lemma per field. -/
theorem operandFieldsAreTheirBits : Obligations.OperandFieldsAreTheirBits :=
  fun w => ⟨fieldX_val w, fieldY_val w, fieldN_toNat w, fieldNN_toNat w, fieldNNN_toNat w⟩

end Sys2Proof
end

section
/-! PROOFS of the family 10_state.md: what each of the 27 instructions writes (the table "Writers", R46), which events write the
fields of the outside agents (R44), and the reset values (R45). -/

namespace Sys2Proof.Machine

/-! What an instruction can do, said once. -/

/-- What the instruction `i` can make of the state `s`: one constructor for each group of meanings that write the same fields
(R46), and the fault sequence (R211). -/
inductive Effect (s : State) : Instr → State → Prop
  /-- The register of the X field and, with a flag write, VF. -/
  | registers {i : Instr} (v : Vector Byte 16)
      (keeps : ∀ r, destReg i ≠ some r → ¬(writesFlag i = true ∧ r = 15) →
        ({ s with v := v } : State).reg r = s.reg r) : Effect s i { s with v := v }
  /-- A transfer or a skip that leaves the call stack alone. -/
  | control {i : Instr} (a : Word) (writes : writesPc i = true) : Effect s i { s with pc := a }
  /-- CALL and RET. -/
  | callStack {i : Instr} (a : Word) (sp : Fin 17) (stack : Vector Word 16) (writes : writesPc i = true)
      (touches : touchesStack i = true) : Effect s i { s with pc := a, sp := sp, stack := stack }
  /-- ANNN. -/
  | index (nnn : Addr) : Effect s (.ldI nnn) (s.setI (addrOperand nnn))
  /-- 00E0. -/
  | clear : Effect s .cls s.clearScreen.setRedraw
  /-- DXYN that completes. -/
  | draw (x y : RegIdx) (n : Nibble) (v : Vector Byte 16) (fb : Framebuffer)
      (blit : OnlyBlit s { s with v := v, fb := fb }) :
      Effect s (.drw x y n) (State.setRedraw { s with v := v, fb := fb })
  /-- DXYN that raises a fault, with the part of the blit before it (R212). -/
  | drawFault (x y : RegIdx) (n : Nibble) (v : Vector Byte 16) (fb : Framebuffer)
      (blit : OnlyBlit s { s with v := v, fb := fb }) (f : Fault) (info : Option Nat) :
      Effect s (.drw x y n) (State.halt { s with v := v, fb := fb } f info)
  /-- FX0A. -/
  | wait (x : RegIdx) : Effect s (.ldKey x) (s.beginWait x)
  /-- A fault before any other write. -/
  | fault {i : Instr} (f : Fault) (info : Option Nat) : Effect s i (s.halt f info)

theorem Effect.setReg {i : Instr} {x : RegIdx} (s : State) (b : Byte) (hx : destReg i = some x) :
    Effect s i (s.setReg x b) :=
  .registers _ fun r hr _ => State.reg_setReg_ne (by rintro rfl; exact hr hx)

theorem Effect.resultThenFlag {i : Instr} {x : RegIdx} (s : State) (b : Byte) (c : Bool) (hx : destReg i = some x)
    (hf : writesFlag i = true) : Effect s i ((s.setReg x b).setFlag c) :=
  .registers _ fun r hr hvf => by
    have hrx : r ≠ x := by rintro rfl; exact hr hx
    have hr15 : r ≠ 15 := fun h => hvf ⟨hf, h⟩
    exact (State.reg_setReg_ne hr15).trans (State.reg_setReg_ne hrx)

theorem Effect.flagThenResult {i : Instr} {x : RegIdx} (s : State) (c : Bool) (f : State → Byte)
    (hx : destReg i = some x) (hf : writesFlag i = true) : Effect s i (s.flagThenResult c x f) :=
  .registers _ fun r hr hvf => by
    have hrx : r ≠ x := by rintro rfl; exact hr hx
    have hr15 : r ≠ 15 := fun h => hvf ⟨hf, h⟩
    exact (State.reg_setReg_ne hrx).trans (State.reg_setReg_ne hr15)

theorem Effect.skipIf {i : Instr} (s : State) (c : Bool) (hi : writesPc i = true) : Effect s i (s.skipIf c) := by
  rw [State.skipIf_eq]
  exact .control _ hi

theorem effect_of_execRet {s t : State} (h : execRet s = .next t) : Effect s .ret t := by
  rcases Nat.eq_zero_or_pos s.sp.val with hsp | hsp
  · rw [execRet, State.pop?_of_empty hsp] at h
    cases h
    exact .fault _ _
  · rw [execRet, State.pop?_of_pos hsp] at h
    cases h
    exact .callStack _ _ _ rfl rfl

theorem effect_of_execCall {nnn : Addr} {s t : State} (h : execCall nnn s = .next t) : Effect s (.call nnn) t := by
  rcases Nat.lt_or_ge s.sp.val 16 with hsp | hsp
  · rw [execCall, State.push?_of_lt _ hsp] at h
    cases h
    exact .callStack _ _ _ rfl rfl
  · rw [execCall, State.push?_of_full _ (by omega)] at h
    cases h
    exact .fault _ _

theorem OnlyBlit.exists_eq {s t : State} (h : OnlyBlit s t) : ∃ v fb, t = { s with v := v, fb := fb } := ⟨_, _, h.1⟩

theorem effect_of_execDrw {x y : RegIdx} {n : Nibble} {s t : State} (h : execDrw x y n s = .next t) :
    Effect s (.drw x y n) t := by
  obtain ⟨u, hblit, hdrw⟩ := execDrw_cases x y n s
  obtain ⟨v, fb, rfl⟩ := hblit.exists_eq
  obtain hdone | ⟨f, info, hfault⟩ := hdrw
  · cases h.symm.trans hdone
    exact .draw x y n v fb hblit
  · cases h.symm.trans hfault
    exact .drawFault x y n v fb hblit f info

/-- Whatever an instruction answers is one of the effects of the table "Writers" (R46). -/
theorem effect_of_exec {i : Instr} {s t : State} (h : exec i s = .next t) : Effect s i t := by
  cases i with
  | cls => cases h; exact .clear
  | ret => exact effect_of_execRet h
  | jp => cases h; exact .control _ rfl
  | call => exact effect_of_execCall h
  | seByte | sneByte | seReg | sneReg => cases h; exact .skipIf s _ rfl
  | ldByte | addByte | ldReg | orReg | andReg | xorReg | rnd | ldDt => cases h; exact .setReg s _ rfl
  | addReg => cases h; exact .resultThenFlag s _ _ rfl rfl
  | subReg | shrReg | subnReg | shlReg => cases h; exact .flagThenResult s _ _ rfl rfl
  | ldI => cases h; exact .index _
  | jpV0 => cases h; exact .control _ rfl
  | drw => exact effect_of_execDrw h
  | skp | sknp =>
    simp only [exec, execSkp, execSknp] at h
    split at h <;> cases h
    · exact .skipIf s _ rfl
    · exact .fault _ _
  | ldKey => cases h; exact .wait _

/-! The rows of the table "Writers" (R46), field by field. -/

section
variable {i : Instr} {s t : State}

theorem Effect.reg (h : Effect s i t) {r : RegIdx} (hr : destReg i ≠ some r) (hvf : ¬(writesFlag i = true ∧ r = 15)) :
    t.reg r = s.reg r := by
  cases h with
  | registers v keeps => exact keeps r hr hvf
  | draw x y n v fb blit => exact blit.2 r fun h => hvf ⟨rfl, h⟩
  | drawFault x y n v fb blit => exact blit.2 r fun h => hvf ⟨rfl, h⟩
  | _ => rfl

theorem Effect.regI (h : Effect s i t) (hi : ∀ nnn, i ≠ .ldI nnn) : t.regI = s.regI := by
  cases h with
  | index nnn => exact absurd rfl (hi nnn)
  | _ => rfl

theorem Effect.pc (h : Effect s i t) (hi : writesPc i = false) : t.pc = s.pc := by
  cases h with
  | control a writes => simp [hi] at writes
  | callStack a sp stack writes => simp [hi] at writes
  | _ => rfl

theorem Effect.callStack_eq (h : Effect s i t) (hi : touchesStack i = false) : t.sp = s.sp ∧ t.stack = s.stack := by
  cases h with
  | callStack a sp stack writes touches => simp [hi] at touches
  | _ => exact ⟨rfl, rfl⟩

theorem Effect.timers_keypad (h : Effect s i t) : t.dt = s.dt ∧ t.st = s.st ∧ t.keypad = s.keypad := by
  cases h <;> exact ⟨rfl, rfl, rfl⟩

theorem Effect.screen (h : Effect s i t) (hi : drawsScreen i = false) :
    t.fb = s.fb ∧ t.shouldRedraw = s.shouldRedraw := by
  cases h with
  | clear | draw | drawFault => cases hi
  | _ => exact ⟨rfl, rfl⟩

/-- No instruction clears the redraw flag (R24). -/
theorem Effect.shouldRedraw (h : Effect s i t) (hs : s.shouldRedraw = true) : t.shouldRedraw = true := by
  cases h with
  | clear | draw => rfl
  | _ => exact hs

theorem Effect.waitX (h : Effect s i t) (hi : ∀ x, i ≠ .ldKey x) : t.waitX = s.waitX := by
  cases h with
  | wait x => exact absurd rfl (hi x)
  | _ => rfl

theorem Effect.mem (h : Effect s i t) : t.mem = s.mem := by
  cases h <;> rfl

/-- Mode, fault code and outputs: as before, but for the mode FX0A writes, or as the fault sequence leaves them (R211). -/
theorem Effect.fault_mode_outputs (h : Effect s i t) :
    (t.fault = s.fault ∧ t.outputs = s.outputs ∧ (t.mode = s.mode ∨ t.mode = .waitKey ∧ ∃ x, i = .ldKey x)) ∨
      ∃ f info, t.fault = some f ∧ t.mode = .halted ∧ t.outputs = .fault f info :: s.outputs := by
  cases h with
  | wait x => exact .inl ⟨rfl, rfl, .inr ⟨rfl, x, rfl⟩⟩
  | fault f info => exact .inr ⟨f, info, rfl, rfl, rfl⟩
  | drawFault x y n v fb blit f info => exact .inr ⟨f, info, rfl, rfl, rfl⟩
  | _ => exact .inl ⟨rfl, rfl, .inl rfl⟩

theorem Effect.model_fields (h : Effect s i t) :
    t.rnd = s.rnd ∧ t.draws = s.draws ∧ t.started = s.started ∧ t.inputs = s.inputs := by
  cases h <;> exact ⟨rfl, rfl, rfl, rfl⟩

end

/-- Settles O47: one lemma per row, each from the one list of effects. -/
theorem instructionsWriteOnlyWhatTheWritersTableLists : Obligations.InstructionsWriteOnlyWhatTheWritersTableLists := by
  intro i s t h
  have e := effect_of_exec h
  exact ⟨fun _ => e.reg, e.regI, e.pc, e.callStack_eq, e.timers_keypad, e.screen, e.waitX, e.mem,
    e.fault_mode_outputs, e.model_fields⟩

/-! Ticks and events: the fields of the outside agents (R44). -/

/-- A tick in `RUN` leaves the keypad and memory alone and does not clear the redraw flag. -/
theorem runTick_outside_fields {r : Draw} {s t : State} (h : runTick r s = .next t) (hm : s.mode = .run) :
    t.keypad = s.keypad ∧ t.mem = s.mem ∧ (s.shouldRedraw = true → t.shouldRedraw = true) := by
  obtain ⟨-, rfl⟩ | ⟨-, i, u, -, hx, rfl⟩ | ⟨-, -, rfl⟩ := runTick_cases hm h
  · exact ⟨rfl, rfl, id⟩
  · have e := effect_of_exec hx
    split <;> exact ⟨e.timers_keypad.2.2, e.mem, e.shouldRedraw⟩
  · exact ⟨rfl, rfl, id⟩

theorem keyDown_mem (k : Key) (s : State) : (keyDown k s).mem = s.mem := by rw [keyDown_frame]

theorem keyDown_shouldRedraw (k : Key) (s : State) : (keyDown k s).shouldRedraw = s.shouldRedraw := by rw [keyDown_frame]

/-- A KEY_DOWN writes no register but the one a key wait names (R193). -/
theorem keyDown_reg (k : Key) (s : State) {q : RegIdx} (hq : q ≠ s.waitX) : (keyDown k s).reg q = s.reg q := by
  unfold keyDown
  split
  · rfl
  · exact State.reg_setReg_ne hq
  · rfl

theorem keyUp_mem (k : Key) (s : State) : (keyUp k s).mem = s.mem := by rw [keyUp_frame]

theorem keyUp_shouldRedraw (k : Key) (s : State) : (keyUp k s).shouldRedraw = s.shouldRedraw := by rw [keyUp_frame]

theorem present_keypad (s : State) : (present s).keypad = s.keypad := by rw [present_frame]

theorem present_mem (s : State) : (present s).mem = s.mem := by rw [present_frame]

/-- PRESENT does not set the redraw flag. -/
theorem present_shouldRedraw {s : State} (h : s.shouldRedraw = false) : (present s).shouldRedraw = false := by
  unfold present
  split
  · exact h
  · exact h
  · rfl

/-- LOAD changes memory at most. -/
theorem load_frame {a : Fin 4096} {b : Byte} {s t : State} (h : load a b s = .next t) : t = { s with mem := t.mem } := by
  obtain ⟨-, rfl⟩ | ⟨-, -, rfl⟩ := load_cases h <;> rfl

theorem load_keypad {a : Fin 4096} {b : Byte} {s t : State} (h : load a b s = .next t) : t.keypad = s.keypad := by
  rw [load_frame h]

theorem load_shouldRedraw {a : Fin 4096} {b : Byte} {s t : State} (h : load a b s = .next t) :
    t.shouldRedraw = s.shouldRedraw := by
  rw [load_frame h]

/-! The step, read from the field that changed to the event that changed it. -/

section
variable {s t : State}

theorem keyEvent_of_keypad_ne (h : step s = .next t) (hne : t.keypad ≠ s.keypad) :
    s.inputs.head? = some .reset ∨ ∃ k, s.inputs.head? = some (.keyDown k) ∨ s.inputs.head? = some (.keyUp k) := by
  rcases step_cases h with ⟨-, hm, r, rest, d, -, hrun⟩ | ⟨-, -, rfl⟩ | ⟨k, rest, hi, -⟩ | ⟨k, rest, hi, -⟩ |
    ⟨rest, -, rfl⟩ | ⟨a, b, rest, -, hload⟩ | ⟨rest, hi, -⟩
  · exact absurd (runTick_outside_fields hrun hm).1 hne
  · exact absurd rfl hne
  · exact .inr ⟨k, .inl (by rw [hi]; rfl)⟩
  · exact .inr ⟨k, .inr (by rw [hi]; rfl)⟩
  · exact absurd (present_keypad _) hne
  · exact absurd (load_keypad hload) hne
  · exact .inl (by rw [hi]; rfl)

theorem loadEvent_of_mem_ne (h : step s = .next t) (hne : t.mem ≠ s.mem) :
    s.inputs.head? = some .reset ∨ ∃ a b, s.inputs.head? = some (.load a b) := by
  rcases step_cases h with ⟨-, hm, r, rest, d, -, hrun⟩ | ⟨-, -, rfl⟩ | ⟨k, rest, -, rfl⟩ | ⟨k, rest, -, rfl⟩ |
    ⟨rest, -, rfl⟩ | ⟨a, b, rest, hi, -⟩ | ⟨rest, hi, -⟩
  · exact absurd (runTick_outside_fields hrun hm).2.1 hne
  · exact absurd rfl hne
  · exact absurd (keyDown_mem k _) hne
  · exact absurd (keyUp_mem k _) hne
  · exact absurd (present_mem _) hne
  · exact .inr ⟨a, b, by rw [hi]; rfl⟩
  · exact .inl (by rw [hi]; rfl)

theorem presentEvent_of_redraw_cleared (h : step s = .next t) (hs : s.shouldRedraw = true) (ht : t.shouldRedraw = false) :
    s.inputs.head? = some .reset ∨ s.inputs.head? = some .present := by
  have hne : t.shouldRedraw ≠ s.shouldRedraw := by rw [hs, ht]; decide
  rcases step_cases h with ⟨-, hm, r, rest, d, -, hrun⟩ | ⟨-, -, rfl⟩ | ⟨k, rest, -, rfl⟩ | ⟨k, rest, -, rfl⟩ |
    ⟨rest, hi, -⟩ | ⟨a, b, rest, -, hload⟩ | ⟨rest, hi, -⟩
  · exact absurd ((runTick_outside_fields hrun hm).2.2 hs) (ne_true_of_eq_false ht)
  · exact absurd rfl hne
  · exact absurd (keyDown_shouldRedraw k _) hne
  · exact absurd (keyUp_shouldRedraw k _) hne
  · exact .inr (by rw [hi]; rfl)
  · exact absurd (load_shouldRedraw hload) hne
  · exact .inl (by rw [hi]; rfl)

theorem tickIsNext_of_redraw_set (h : step s = .next t) (hs : s.shouldRedraw = false) (ht : t.shouldRedraw = true) :
    TickIsNext s ∧ s.mode = .run := by
  have hne : t.shouldRedraw ≠ s.shouldRedraw := by rw [hs, ht]; decide
  rcases step_cases h with ⟨htick, hm, -⟩ | ⟨-, -, rfl⟩ | ⟨k, rest, -, rfl⟩ | ⟨k, rest, -, rfl⟩ |
    ⟨rest, -, rfl⟩ | ⟨a, b, rest, -, hload⟩ | ⟨rest, -, rfl⟩
  · exact ⟨htick, hm⟩
  · exact absurd rfl hne
  · exact absurd (keyDown_shouldRedraw k _) hne
  · exact absurd (keyUp_shouldRedraw k _) hne
  · exact absurd ht (ne_true_of_eq_false (present_shouldRedraw hs))
  · exact absurd (load_shouldRedraw hload) hne
  · cases ht

end

/-- Settles O50: the frame of each event, and for each field the events that can change it. -/
theorem outsideAgentsWriteOnlyTheirFields : Obligations.OutsideAgentsWriteOnlyTheirFields := by
  intro s t h
  have hevent : ∀ {e rest}, s.inputs = e :: rest → handleInput e { s with inputs := rest } = .next t :=
    fun hi => (step_of_cons hi).symm.trans h
  refine ⟨⟨fun k rest hi => ?_, fun k rest hi hm => ?_, fun k rest hi hm => ?_, fun rest hi => ?_,
      fun a b rest hi => load_frame (hevent hi)⟩,
    keyEvent_of_keypad_ne h, loadEvent_of_mem_ne h, presentEvent_of_redraw_cleared h, tickIsNext_of_redraw_set h⟩
  · cases hevent hi
    exact keyUp_frame k _
  · cases hevent hi
    exact keyDown_of_not_waiting (s := { s with inputs := rest }) hm k
  · cases hevent hi
    exact ⟨keyDown_frame k _, fun q hq => keyDown_reg k _ hq⟩
  · cases hevent hi
    exact present_frame _

/-! Reset (R45). -/

/-- `State.reset` is the column of the table "Reset values". -/
theorem hasResetValues_reset : HasResetValues State.reset := by
  have hreg : ∀ r, State.reset.reg r = 0 := by decide
  have hstack : ∀ n : Fin 16, State.reset.stack[n.val] = 0 := by decide
  have hkeypad : ∀ k : Key, State.reset.keypad[k.val] = false := by decide
  exact ⟨hreg, rfl, rfl, hstack, rfl, rfl, rfl, Memory.read_nil, State.pixel_clearScreen State.reset, hkeypad, rfl, rfl, rfl,
    rfl, rfl⟩

/-- RESET sets every row of the table; what it keeps of the state before is in no row (log 9). -/
theorem hasResetValues_restart (s : State) : HasResetValues s.restart := hasResetValues_reset

/-- Settles O52. -/
theorem resetGivesEveryFieldItsValue : Obligations.ResetGivesEveryFieldItsValue :=
  ⟨hasResetValues_reset, fun _ _ hi => ⟨_, step_of_cons hi, rfl, hasResetValues_restart _⟩⟩

end Sys2Proof.Machine
end

section
/-! PROOFS of the family 20_memory.md: the fetch (R63, R101). -/

namespace Sys2Proof.Machine

/-- A word in memory has the byte at the lower address as its high byte (R63). -/
theorem Memory.readWord_toNat (m : Memory) (a : Nat) :
    (m.readWord a).toNat = (m.read a).toNat * 256 + (m.read (a + 1)).toNat :=
  wordOfBytes_toNat _ _

theorem onlyPc_advance (s : State) : OnlyPc s s.advance := rfl

/-- With both bytes in memory the fetch answers the next word, from an odd `PC` too (R101, D11). -/
theorem fetch_of_le {s : State} (h : s.pc.toNat ≤ 4094) : fetch s = some (s.nextWord, s.advance) := if_pos h

/-- Past the last word there is no fetch (R101, D3). -/
theorem fetch_of_gt {s : State} (h : 4094 < s.pc.toNat) : fetch s = none := if_neg (Nat.not_le.2 h)

/-- Settles O7: by the two sides of the bounds test. -/
theorem fetchReadsTheBigEndianWord : Obligations.FetchReadsTheBigEndianWord := by
  refine fun s => ⟨fun hle => ?_, fun hgt => ?_⟩
  · have hpc : s.advance.pc.toNat = s.pc.toNat + 2 := State.advance_pc_toNat (hle.trans (by decide))
    exact ⟨s.nextWord, s.advance, fetch_of_le hle, s.mem.readWord_toNat _, onlyPc_advance s, hpc⟩
  · exact ⟨fetch_of_gt hgt, fun r => runTick_of_gt r hgt⟩

end Sys2Proof.Machine
end

section
/-! PROOFS of the family 40_tick_fetch_dispatch.md: the tick on an unsupported word (R103), and the tick outside `RUN` (R104). -/

namespace Sys2Proof.Machine

/-- A tick in `RUN` on an unsupported word: the diagnostic in place of an instruction, then the timer step (R103, D14). -/
theorem runTick_of_unsupported {s : State} (r : Draw) (hm : s.mode = .run) (hle : s.pc.toNat ≤ 4094)
    (hd : decode s.nextWord = none) :
    runTick r s = .next ((s.offer r).advance.emit (.diag s.nextWord)).timerStep := by
  have hexec : execute s.nextWord (s.offer r).advance = .next ((s.offer r).advance.emit (.diag s.nextWord)) := by
    rw [execute, hd]
  have hrun : ((s.offer r).advance.emit (.diag s.nextWord)).mode = .run := hm
  rw [runTick_of_le r hle, hexec, finishTick_next, if_pos hrun]

/-- Settles O9: the frame is read off the state the tick ends in; `PC` and the two timers are its arithmetic. -/
theorem unsupportedWordOnlyEmitsItsDiagnostic : Obligations.UnsupportedWordOnlyEmitsItsDiagnostic := by
  intro s r rest d hn hm hle hd
  have hstep := (step_of_nextTick hn hm).trans (runTick_of_unsupported r hm hle hd)
  have hpc : s.advance.pc.toNat = s.pc.toNat + 2 := State.advance_pc_toNat (hle.trans (by decide))
  exact ⟨_, hstep, rfl, hpc, countDown_toNat s.dt, countDown_toNat s.st⟩

/-- Settles O11: in both clauses the next event is a TICK, and outside `RUN` such a step only takes it off the list. -/
theorem tickOutsideRunChangesNothing : Obligations.TickOutsideRunChangesNothing := by
  refine fun s hm => ⟨fun hi => ?_, fun r rest hi => ?_⟩
  · have htick : TickIsNext s := by rw [TickIsNext, hi]; trivial
    have hinputs : s.inputs.tail = s.inputs := by rw [hi]; rfl
    rw [step_of_tick_not_run htick hm, hinputs]
  · have htick : TickIsNext s := tickIsNext_of_nextTick (.inl ⟨hi, rfl⟩)
    rw [step_of_tick_not_run htick hm, hi, List.tail_cons]

end Sys2Proof.Machine
end

section
/-! PROOFS of the family 41_control_flow.md: the transfers of control and the skips (R120 to R127). The decoding clauses come from
one fact about the opcode map, that at most one row covers a word (R84). -/

namespace Sys2Proof

/-- At most one row of the opcode map covers a word: two that do agree on the bits both masks keep (`covers_agree`), and no two
rows of the table do that (R84). -/
theorem opcodeMap_covers_unique {w : Word} {a b : Fin opcodeMap.length} (ha : (opcodeMap.get a).covers w = true)
    (hb : (opcodeMap.get b).covers w = true) : a = b := by
  have hdiffer : ∀ a b : Fin opcodeMap.length, (opcodeMap.get a).mtch &&& (opcodeMap.get b).mask =
      (opcodeMap.get b).mtch &&& (opcodeMap.get a).mask → a = b := by decide
  exact hdiffer a b (covers_agree ha hb)

/-- The decoder answers the instruction of any row that covers the word: the row it finds is that row (R84). -/
theorem decode_of_covers {r : OpcodeRow} {w : Word} (hr : r ∈ opcodeMap) (hc : r.covers w = true) :
    decode w = some (r.build w) := by
  obtain ⟨r', hfind⟩ := Option.isSome_iff_exists.1 (List.find?_isSome (p := (OpcodeRow.covers · w)).2 ⟨r, hr, hc⟩)
  have hc' : r'.covers w = true := List.find?_some (p := (OpcodeRow.covers · w)) hfind
  obtain ⟨a, rfl⟩ := List.get_of_mem hr
  obtain ⟨b, rfl⟩ := List.get_of_mem (List.mem_of_find?_eq_some hfind)
  rw [decode, hfind, opcodeMap_covers_unique hc hc', Option.map_some]

open Laws.EncodingFitsARow in
/-- An instruction whose word fits a row is what its word decodes to (R84, R85). -/
theorem decode_of_fitsARow {i : Instr} (h : Statement i) : decode (encode i) = some i := by
  obtain ⟨r, hr, hcovers, hbuild⟩ := h
  rw [decode_of_covers hr hcovers, hbuild]

namespace Machine

open Laws

theorem onlyPc_jump (s : State) (a : Word) : OnlyPc s (s.jump a) := rfl

theorem onlyPc_skipIf (s : State) (c : Bool) : OnlyPc s (s.skipIf c) := by
  rw [State.skipIf_eq]
  rfl

/-- `PC` after a skip taken when two bytes are equal (R123, R125). -/
theorem State.skipIf_beq_pc (s : State) (a b : Byte) : (s.skipIf (a == b)).pc = if a = b then s.pc + 2 else s.pc := by
  simp only [State.skipIf_eq, beq_iff_eq]

/-- `PC` after a skip taken when two bytes differ (R124, R126). -/
theorem State.skipIf_bne_pc (s : State) (a b : Byte) : (s.skipIf (a != b)).pc = if a = b then s.pc else s.pc + 2 := by
  simp only [State.skipIf_eq, bne_iff_ne, ite_not]

/-- A slot of the call stack after one slot is written. -/
theorem stack_getElem_set (stack : Vector Word 16) {k : Nat} (hk : k < 16) (a : Word) (n : Fin 16) :
    (stack.set k a)[n.val] = if n.val = k then a else stack[n.val] := by
  simp only [Vector.getElem_set, eq_comm (a := k)]

/-- RET with a slot in use: what it pops, and the rest of the state (R120). -/
theorem exec_ret_of_pos {s : State} (h : 0 < s.sp.val) (hs : s.sp.val - 1 < 16 := by omega) :
    exec .ret s = .next { s with pc := s.stack[s.sp.val - 1], sp := ⟨s.sp.val - 1, by omega⟩,
                                 stack := s.stack.set (s.sp.val - 1) 0 } := by
  rw [exec, execRet, State.pop?_of_pos h]
  rfl

/-- RET on the empty stack (R120, D17). -/
theorem exec_ret_of_empty {s : State} (h : s.sp.val = 0) : exec .ret s = raise .stackUnderflow none s := by
  rw [exec, execRet, State.pop?_of_empty h]

/-- CALL with a slot free: what it pushes, and where it goes (R122). -/
theorem exec_call_of_lt {s : State} (nnn : Addr) (h : s.sp.val < 16) :
    exec (.call nnn) s = .next { s with pc := addrOperand nnn, sp := ⟨s.sp.val + 1, by omega⟩,
                                        stack := s.stack.set s.sp.val s.pc } := by
  rw [exec, execCall, State.push?_of_lt _ h]
  rfl

/-- CALL on the full stack (R122, D6). -/
theorem exec_call_of_full {s : State} (nnn : Addr) (h : s.sp.val = 16) :
    exec (.call nnn) s = raise .stackOverflow none s := by
  rw [exec, execCall, State.push?_of_full _ h]

/-- Settles O15: by whether a slot is in use. -/
theorem retPopsTheReturnAddress : Obligations.RetPopsTheReturnAddress := by
  refine ⟨decode_of_fitsARow EncodingFitsARow.ret, fun s => ⟨fun hpos => ?_, fun hempty => exec_ret_of_empty hempty⟩⟩
  have htop : s.sp.val - 1 < 16 := by omega
  exact ⟨_, exec_ret_of_pos hpos, rfl, rfl, rfl, stack_getElem_set s.stack htop 0⟩

/-- Settles O16: a jump is a write of `PC`. -/
theorem jpWritesItsTargetOnly : Obligations.JpWritesItsTargetOnly :=
  fun s nnn => ⟨decode_of_fitsARow (EncodingFitsARow.jp nnn), _, rfl, onlyPc_jump s _, addrOperand_toNat nnn⟩

/-- Settles O17: by whether a slot is free. -/
theorem callPushesTheReturnAddress : Obligations.CallPushesTheReturnAddress := by
  refine fun s nnn => ⟨decode_of_fitsARow (EncodingFitsARow.call nnn), fun hfree => ?_, fun hfull => exec_call_of_full nnn hfull⟩
  exact ⟨_, exec_call_of_lt nnn hfree, rfl, rfl, addrOperand_toNat nnn, stack_getElem_set s.stack hfree s.pc⟩

/-- Settles O18: both are skips on a comparison of `V[X]` with the byte. -/
theorem skipsOnAByteMoveOverOneWord : Obligations.SkipsOnAByteMoveOverOneWord :=
  fun s x nn => ⟨decode_of_fitsARow (EncodingFitsARow.seByte x nn), decode_of_fitsARow (EncodingFitsARow.sneByte x nn),
    ⟨_, rfl, onlyPc_skipIf s _, s.skipIf_beq_pc (s.reg x) nn⟩, ⟨_, rfl, onlyPc_skipIf s _, s.skipIf_bne_pc (s.reg x) nn⟩⟩

/-- Settles O19: both are skips on a comparison of `V[X]` with `V[Y]`. -/
theorem skipsOnRegistersMoveOverOneWord : Obligations.SkipsOnRegistersMoveOverOneWord :=
  fun s x y => ⟨decode_of_fitsARow (EncodingFitsARow.seReg x y), decode_of_fitsARow (EncodingFitsARow.sneReg x y),
    ⟨_, rfl, onlyPc_skipIf s _, s.skipIf_beq_pc (s.reg x) (s.reg y)⟩,
    ⟨_, rfl, onlyPc_skipIf s _, s.skipIf_bne_pc (s.reg x) (s.reg y)⟩⟩

/-- Settles O20: a jump to the indexed address, whose sum fits in 16 bits. -/
theorem jpV0AddsRegisterZero : Obligations.JpV0AddsRegisterZero :=
  fun s nnn => ⟨decode_of_fitsARow (EncodingFitsARow.jpV0 nnn), _, rfl, onlyPc_jump s _, indexedAddr_toNat s nnn⟩

end Machine

end Sys2Proof
end

section
/-! PROOFS of the family 42_load_immediate.md: the loads of `V[X]` and of `I`, the addition of a byte, and the random byte in a tick
(R140 to R143). -/

namespace Sys2Proof.Machine

open Laws

/-- A register write changes that register at most (R20). -/
theorem onlyRegs_setReg (s : State) (x : RegIdx) (b : Byte) : OnlyRegs [x] s (s.setReg x b) :=
  ⟨rfl, fun _ hr => State.reg_setReg_ne (List.ne_of_not_mem_cons hr)⟩

/-- A step that ticks in `RUN` on a word that decodes: the instruction's meaning from the handler's state, then the timer step if the
machine still runs (R100, R102). -/
theorem step_of_decode {s u : State} {r : Draw} {rest : List Input} {d : Nat} {i : Instr} (hn : NextTick s r rest d)
    (hm : s.mode = .run) (hle : s.pc.toNat ≤ 4094) (hd : decode s.nextWord = some i)
    (hx : exec i { handlerState s rest r with draws := d } = .next u) :
    step s = .next (if u.mode = .run then u.timerStep else u) := by
  have htick : runTick r { s with inputs := rest, draws := d } =
      finishTick (execute s.nextWord { handlerState s rest r with draws := d }) := runTick_of_le r hle
  rw [step_of_nextTick hn hm, htick, execute, hd]
  simp only [hx, finishTick_next]

/-- Every draw is a byte from 1 up (R106). -/
theorem one_le_drawByte_toNat (r : Draw) : 1 ≤ (drawByte r).toNat := by
  rw [drawByte_toNat]
  exact Nat.le_add_left 1 r.val

/-- Every byte but 0 is the byte of some draw (R106). -/
theorem exists_drawByte_eq {b : Byte} (hb : b ≠ 0) : ∃ r : Draw, drawByte r = b := by
  have hpos : b.toNat ≠ 0 := fun h => hb (BitVec.eq_of_toNat_eq h)
  have hlt : b.toNat < 256 := b.isLt
  refine ⟨⟨b.toNat - 1, by omega⟩, BitVec.eq_of_toNat_eq ?_⟩
  rw [drawByte_toNat]
  exact Nat.succ_pred hpos

/-- Settles O22: a load is a register write. -/
theorem ldByteLoadsItsImmediate : Obligations.LdByteLoadsItsImmediate :=
  fun s x nn => ⟨decode_of_fitsARow (EncodingFitsARow.ldByte x nn), _, rfl, onlyRegs_setReg s x nn, s.reg_setReg_self x nn⟩

/-- Settles O23: the one register written gets the 8-bit sum, which is the sum modulo 256. -/
theorem addByteWrapsWithoutFlag : Obligations.AddByteWrapsWithoutFlag := by
  refine fun s x nn => ⟨decode_of_fitsARow (EncodingFitsARow.addByte x nn), _, rfl, onlyRegs_setReg s x _, ?_⟩
  rw [State.reg_setReg_self, BitVec.toNat_add]

/-- Settles O24: the one write is of the 12-bit operand to `I`, zero-extended. -/
theorem ldILoadsTheIndexRegister : Obligations.LdILoadsTheIndexRegister :=
  fun _ nnn => ⟨decode_of_fitsARow (EncodingFitsARow.ldI nnn), _, rfl, rfl, addrOperand_toNat nnn⟩

/-- Settles O25: the handler masks the byte its state offers, and in a tick that byte is the draw's; the timer step after it
leaves the registers. -/
theorem rndMasksTheOfferedByte : Obligations.RndMasksTheOfferedByte := by
  refine ⟨one_le_drawByte_toNat, fun b => exists_drawByte_eq, fun s x nn =>
    ⟨decode_of_fitsARow (EncodingFitsARow.rnd x nn), ?_, fun r rest d hn hm hle hd => ?_⟩⟩
  · exact ⟨_, rfl, onlyRegs_setReg s x _, s.reg_setReg_self x _⟩
  · have hstep := step_of_decode hn hm hle hd rfl
    exact ⟨_, hstep.trans (congrArg _ (if_pos hm)), State.reg_setReg_self _ x _⟩

end Sys2Proof.Machine
end

section
/-! PROOFS of the family 43_alu.md: the copy and the logic operations (R151 to R154), which write `V[X]` alone, the addition, which
writes its carry last (R155), and the four instructions that write VF first and then a result read from the registers as that write
left them (R150, R156 to R159). -/

namespace Sys2Proof.Machine

open Laws

/-- `decode_of_fitsARow` with the word written out: the two spellings of the word are matched by `encode`'s own equation, apart from
the decoder (R84, R85). -/
theorem decode_of_encode_eq {i : Instr} {w : Word} (hw : encode i = w) (h : EncodingFitsARow.Statement i) : decode w = some i :=
  hw ▸ decode_of_fitsARow h

theorem OnlyRegs.trans {xs : List RegIdx} {s t u : State} (h : OnlyRegs xs s t) (h' : OnlyRegs xs t u) : OnlyRegs xs s u :=
  ⟨by rw [h'.1, h.1], fun r hr => (h'.2 r hr).trans (h.2 r hr)⟩

/-- A register write is in the frame of every list that names the register (R20). -/
theorem onlyRegs_setReg_of_mem {xs : List RegIdx} (s : State) {x : RegIdx} (b : Byte) (hx : x ∈ xs) :
    OnlyRegs xs s (s.setReg x b) :=
  ⟨rfl, fun _ hr => State.reg_setReg_ne (ne_of_mem_of_not_mem hx hr).symm⟩

/-- A flag write is a write of register 15 (R23). -/
theorem onlyRegs_setFlag_of_mem {xs : List RegIdx} (s : State) (c : Bool) (hvf : 15 ∈ xs) : OnlyRegs xs s (s.setFlag c) :=
  onlyRegs_setReg_of_mem s (flagByte c) hvf

theorem onlyRegs_flagThenResult (s : State) (c : Bool) (x : RegIdx) (f : State → Byte) :
    OnlyRegs [x, 15] s (s.flagThenResult c x f) :=
  (onlyRegs_setFlag_of_mem s c (by simp)).trans (onlyRegs_setReg_of_mem _ _ (by simp))

/-- What the second step of a flag-writing instruction reads from a register (R150). -/
theorem State.reg_setFlag_toNat (s : State) (c : Bool) (r : RegIdx) :
    ((s.setFlag c).reg r).toNat = afterFlag s (flagByte c).toNat r := by
  rw [State.reg_setFlag, apply_ite BitVec.toNat, afterFlag]

/-! The flags and the difference as numbers. -/

theorem flagByte_carryOf_toNat (a b : Byte) : (flagByte (carryOf a b)).toNat = if 255 < a.toNat + b.toNat then 1 else 0 := by
  simp only [flagByte_toNat, carryOf_iff]

theorem flagByte_notBorrow_toNat (a b : Byte) : (flagByte (notBorrow a b)).toNat = if b.toNat ≤ a.toNat then 1 else 0 := by
  simp only [flagByte_toNat, notBorrow_iff]

theorem flagByte_bitZero_toNat (a : Byte) : (flagByte (bitZero a)).toNat = a.toNat % 2 := by
  simp only [flagByte_toNat, bitZero_iff]
  split <;> omega

theorem flagByte_bitSeven_toNat (a : Byte) : (flagByte (bitSeven a)).toNat = a.toNat / 128 := by
  have := a.isLt
  simp only [flagByte_toNat, bitSeven_iff]
  split <;> omega

/-- The difference modulo 256, as R156 and R158 write it. -/
theorem byte_sub_toNat (a b : Byte) : (a - b).toNat = (a.toNat + 256 - b.toNat) % 256 := by
  rw [BitVec.toNat_sub', ← Nat.add_sub_assoc b.isLt.le]

/-- An instruction whose meaning is one register write: its frame and its result (R151 to R154). -/
theorem exec_of_setReg {i : Instr} {s : State} {x : RegIdx} {b : Byte} (hexec : exec i s = .next (s.setReg x b)) :
    ∃ t, exec i s = .next t ∧ OnlyRegs [x] s t ∧ t.reg x = b :=
  ⟨_, hexec, onlyRegs_setReg s x b, s.reg_setReg_self x b⟩

/-- An instruction whose meaning is a flag write and then a result: its frame, the flag `k` it writes, and its result `n`, a number
that depends on the flag only through the registers the second step reads (R150). -/
theorem exec_of_flagThenResult {i : Instr} {s : State} {flag : Bool} {x : RegIdx} {f : State → Byte} {k : Nat} {n : Nat → Nat}
    (hexec : exec i s = .next (s.flagThenResult flag x f)) (hflag : (flagByte flag).toNat = k)
    (hresult : (f (s.setFlag flag)).toNat = n (flagByte flag).toNat) :
    ∃ t c, exec i s = .next t ∧ OnlyRegs [x, 15] s t ∧ c = k ∧ (x ≠ 15 → (t.reg 15).toNat = c) ∧ (t.reg x).toNat = n c := by
  refine ⟨_, _, hexec, onlyRegs_flagThenResult s flag x f, hflag, fun hx => ?_, ?_⟩
  · rw [State.reg_flagThenResult, if_neg hx.symm, if_pos rfl]
  · rw [State.reg_flagThenResult, if_pos rfl, hresult]

/-- Settles O27: two register writes, the result and then the carry, both of the sum of the old values. -/
theorem addRegWritesTheHighByteOnCarry : Obligations.AddRegWritesTheHighByteOnCarry := by
  refine fun s x y => ⟨decode_of_encode_eq rfl (EncodingFitsARow.addReg x y), _, rfl, ?frame, ?carry, fun hx => ?sum⟩
  case frame => exact (onlyRegs_setReg_of_mem s _ (by simp)).trans (onlyRegs_setFlag_of_mem _ _ (by simp))
  case carry => rw [State.reg_setFlag, if_pos rfl, flagByte_carryOf_toNat]
  case sum => rw [State.reg_setFlag, if_neg hx, State.reg_setReg_self, addResult_toNat]

/-- Settles O28: not-borrow, then the difference of the registers the flag write left. -/
theorem subRegWritesNotBorrowThenDifference : Obligations.SubRegWritesNotBorrowThenDifference := by
  refine fun s x y => ⟨decode_of_encode_eq rfl (EncodingFitsARow.subReg x y),
    exec_of_flagThenResult rfl (flagByte_notBorrow_toNat _ _) ?_⟩
  rw [byte_sub_toNat, State.reg_setFlag_toNat, State.reg_setFlag_toNat]

/-- Settles O29: bit 0 of the old `V[X]`, then half of the `V[Y]` the flag write left. -/
theorem shrRegShiftsYIntoX : Obligations.ShrRegShiftsYIntoX := by
  refine fun s x y => ⟨decode_of_encode_eq rfl (EncodingFitsARow.shrReg x y),
    exec_of_flagThenResult rfl (flagByte_bitZero_toNat _) ?_⟩
  rw [BitVec.toNat_ushiftRight, Nat.shiftRight_one, State.reg_setFlag_toNat]

/-- Settles O30: not-borrow, said as `V[X]` not exceeding `V[Y]`, then the reverse difference of the registers the flag write
left. -/
theorem subnRegWritesNotBorrowThenReverseDifference : Obligations.SubnRegWritesNotBorrowThenReverseDifference := by
  refine fun s x y => ⟨decode_of_encode_eq rfl (EncodingFitsARow.subnReg x y), exec_of_flagThenResult rfl ?flag ?result⟩
  case flag => simp only [flagByte_notBorrow_toNat, ← Nat.not_lt, ite_not]
  case result => rw [byte_sub_toNat, State.reg_setFlag_toNat, State.reg_setFlag_toNat]

/-- Settles O31: bit 7 of `V[Y]`, then twice the `V[Y]` the flag write left, modulo 256. -/
theorem shlRegShiftsYIntoX : Obligations.ShlRegShiftsYIntoX := by
  refine fun s x y => ⟨decode_of_encode_eq rfl (EncodingFitsARow.shlReg x y),
    exec_of_flagThenResult rfl (flagByte_bitSeven_toNat _) ?_⟩
  rw [BitVec.toNat_shiftLeft, Nat.shiftLeft_eq, State.reg_setFlag_toNat]

/-- Settles O26: each is one register write, of a value read before it. -/
theorem copyAndLogicWriteTheirResultOnly : Obligations.CopyAndLogicWriteTheirResultOnly :=
  fun _ x y => ⟨⟨decode_of_encode_eq rfl (EncodingFitsARow.ldReg x y), decode_of_encode_eq rfl (EncodingFitsARow.orReg x y),
      decode_of_encode_eq rfl (EncodingFitsARow.andReg x y), decode_of_encode_eq rfl (EncodingFitsARow.xorReg x y)⟩,
    exec_of_setReg rfl, exec_of_setReg rfl, exec_of_setReg rfl, exec_of_setReg rfl⟩

end Sys2Proof.Machine
end

section
/-! PROOFS of the family 44_display.md: the clear (R170), and the draw on every state (R171): the loop's result, `Drawn`, carried over
the last step of the draw. -/

namespace Sys2Proof.Machine

open Laws

/-- The last step of a draw whose loop has left `t`: the redraw flag if no check failed, else the fault sequence of the check that did
(R171, R212). -/
def State.endDraw (t : State) : Option (Fault × Nat) → State
  | none => t.setRedraw
  | some (f, info) => t.halt f (some info)

@[simp] theorem State.endDraw_v (t : State) (k : Option (Fault × Nat)) : (t.endDraw k).v = t.v := by cases k <;> rfl

@[simp] theorem State.endDraw_fb (t : State) (k : Option (Fault × Nat)) : (t.endDraw k).fb = t.fb := by cases k <;> rfl

theorem State.pixel_endDraw (t : State) (k : Option (Fault × Nat)) (p : Nat) : (t.endDraw k).pixel p = t.pixel p := by
  simp only [State.pixel, State.endDraw_fb]

theorem State.reg_endDraw (t : State) (k : Option (Fault × Nat)) (q : RegIdx) : (t.endDraw k).reg q = t.reg q := by
  simp only [State.reg, State.endDraw_v]

/-- DXYN: `drawnPixels` toggled from VF reset, then the last step for the first failing check (R171). -/
theorem exec_drw_drawn (s : State) (x y : RegIdx) (n : Nibble) :
    ∃ u, Drawn s (drawnPixels s (s.reg x).toNat (s.reg y).toNat n.toNat) u ∧
      exec (.drw x y n) s =
        .next (u.endDraw ((drawOrder n.toNat).findSome? (drawFailure s (s.reg x).toNat (s.reg y).toNat))) := by
  obtain ⟨u, hu, hloop⟩ := forEach_drawRow_drawn s (s.reg x).toNat (s.reg y).toNat n.toNat
  refine ⟨u, hu, ?_⟩
  rw [exec, execDrw, hloop]
  cases (drawOrder n.toNat).findSome? (drawFailure s (s.reg x).toNat (s.reg y).toNat) with
  | none => rfl
  | some failure => rfl

/-- Settles O34: what the loop has drawn stands after the last step, which writes no register and no pixel. -/
theorem drawBlitsUpToTheFirstFailingCheck : Obligations.DrawBlitsUpToTheFirstFailingCheck := by
  intro s x y n
  obtain ⟨u, ⟨⟨hframe, hregs⟩, hpixels, hflag⟩, hexec⟩ := exec_drw_drawn s x y n
  refine ⟨decode_of_encode_eq rfl (EncodingFitsARow.drw x y n), _, hexec, fun p hp => ?pixels, ?flag, fun q hq => ?regs, ?frame⟩
  case pixels => rw [State.pixel_endDraw, hpixels p hp]
  case flag => rw [State.reg_endDraw, hflag]
  case regs => rw [State.reg_endDraw, hregs q hq]
  case frame =>
    rw [State.endDraw_v, State.endDraw_fb]
    cases (drawOrder n.toNat).findSome? (drawFailure s (s.reg x).toNat (s.reg y).toNat) with
    | none => exact congrArg State.setRedraw hframe
    | some failure => exact congrArg (State.halt · failure.1 (some failure.2)) hframe

/-- Settles O33: the clear writes the framebuffer and the redraw flag, and no register. -/
theorem clsClearsEveryPixel : Obligations.ClsClearsEveryPixel :=
  ⟨decode_of_fitsARow EncodingFitsARow.cls, fun s => ⟨_, rfl, rfl, fun p _ => s.pixel_clearScreen p⟩⟩

end Sys2Proof.Machine
end

section
/-! PROOFS of the family 45_keypad_timer.md: the keypad skips (R190, R191), the read of the delay timer (R192), the key events (R193,
R194), and the timer step: which steps make it (R195), and what it does to the sound (R196). -/

namespace Sys2Proof.Machine

open Laws

/-! The keypad skips (R190, R191). -/

theorem State.skipIf_pc (s : State) (c : Bool) : (s.skipIf c).pc = if c = true then s.pc + 2 else s.pc := by
  rw [State.skipIf_eq]

theorem State.skipIf_not_pc (s : State) (c : Bool) : (s.skipIf !c).pc = if c = true then s.pc else s.pc + 2 := by
  cases c <;> rfl

theorem exec_skp_of_lt {s : State} {x : RegIdx} (h : (s.reg x).toNat < 16) :
    exec (.skp x) s = .next (s.skipIf s.keypad[(s.reg x).toNat]) := by
  rw [exec, execSkp, State.keyLevel?_of_lt h]

theorem exec_sknp_of_lt {s : State} {x : RegIdx} (h : (s.reg x).toNat < 16) :
    exec (.sknp x) s = .next (s.skipIf !s.keypad[(s.reg x).toNat]) := by
  rw [exec, execSknp, State.keyLevel?_of_lt h]

/-- A register above 15 names no key (R190, D7). -/
theorem exec_skp_of_gt {s : State} {x : RegIdx} (h : 15 < (s.reg x).toNat) :
    exec (.skp x) s = raise .keyBounds (some (s.reg x).toNat) s := by
  rw [exec, execSkp, State.keyLevel?_of_ge h]

/-- A register above 15 names no key (R191, D7). -/
theorem exec_sknp_of_gt {s : State} {x : RegIdx} (h : 15 < (s.reg x).toNat) :
    exec (.sknp x) s = raise .keyBounds (some (s.reg x).toNat) s := by
  rw [exec, execSknp, State.keyLevel?_of_ge h]

/-- Settles O38: by whether `V[X]` names a key. -/
theorem keySkipsFollowTheKeyLevel : Obligations.KeySkipsFollowTheKeyLevel := by
  refine fun s x => ⟨decode_of_encode_eq rfl (EncodingFitsARow.skp x), decode_of_encode_eq rfl (EncodingFitsARow.sknp x),
    fun hkey => ⟨?skp, ?sknp⟩, fun hgt => ?bounds⟩
  case skp => exact ⟨_, exec_skp_of_lt hkey, onlyPc_skipIf s _, s.skipIf_pc _⟩
  case sknp => exact ⟨_, exec_sknp_of_lt hkey, onlyPc_skipIf s _, s.skipIf_not_pc _⟩
  case bounds => exact List.forall_mem_cons.2 ⟨exec_skp_of_gt hgt, List.forall_mem_singleton.2 (exec_sknp_of_gt hgt)⟩

/-! The delay timer (R192). -/

/-- Settles O39: a register write of the DT the handler finds; the timer step comes after it and leaves the registers. -/
theorem ldDtReadsTheDelayTimer : Obligations.LdDtReadsTheDelayTimer := by
  refine fun s x => ⟨decode_of_encode_eq rfl (EncodingFitsARow.ldDt x), exec_of_setReg rfl, fun r rest d hn hm hle hd => ?_⟩
  have hstep := step_of_decode hn hm hle hd rfl
  exact ⟨_, hstep.trans (congrArg _ (if_pos hm)), State.reg_setReg_self _ x _, countDown_toNat s.dt⟩

/-! The key events (R193, R194): what each is in each mode. -/

theorem keyUp_of_not_halted {s : State} (h : s.mode ≠ .halted) (k : Key) : keyUp k s = s.setKey k false := by
  unfold keyUp
  split
  · rfl
  · rfl
  · rename_i hhalted; exact absurd hhalted h

theorem keyUp_of_halted {s : State} (h : s.mode = .halted) (k : Key) : keyUp k s = s := by simp only [keyUp, h]

theorem keyDown_of_run {s : State} (h : s.mode = .run) (k : Key) : keyDown k s = s.setKey k true := by simp only [keyDown, h]

/-- In a key wait: the key to the register that waits, the machine back in `RUN`, one timer step (R193). -/
theorem keyDown_of_waitKey {s : State} (h : s.mode = .waitKey) (k : Key) :
    keyDown k s = { (s.setKey k true).setReg s.waitX (BitVec.ofNat 8 k.val) with mode := .run }.timerStep := by
  simp only [keyDown, h]

theorem keyDown_of_halted {s : State} (h : s.mode = .halted) (k : Key) : keyDown k s = s := by simp only [keyDown, h]

theorem State.keypad_setKey_true (s : State) (k j : Key) :
    (s.setKey k true).keypad[j.val] = (s.keypad[j.val] || decide (j = k)) := by
  rw [State.keypad_setKey]
  by_cases h : j = k <;> simp [h]

theorem State.keypad_setKey_false (s : State) (k j : Key) :
    (s.setKey k false).keypad[j.val] = (s.keypad[j.val] && decide (j ≠ k)) := by
  rw [State.keypad_setKey]
  by_cases h : j = k <;> simp [h]

/-- A register that is given a key's index holds it: every key index fits a register (R38). -/
theorem State.reg_setReg_key_toNat (s : State) (x : RegIdx) (k : Key) :
    ((s.setReg x (BitVec.ofNat 8 k.val)).reg x).toNat = k.val := by
  rw [State.reg_setReg_self]
  exact Nat.mod_eq_of_lt (k.isLt.trans (by decide))

theorem step_of_keyUp {s : State} {k : Key} {rest : List Input} {u : State} (hi : s.inputs = .keyUp k :: rest)
    (hu : keyUp k { s with inputs := rest } = u) : step s = .next u :=
  (step_of_cons hi).trans (congrArg _ hu)

theorem step_of_keyDown {s : State} {k : Key} {rest : List Input} {u : State} (hi : s.inputs = .keyDown k :: rest)
    (hu : keyDown k { s with inputs := rest } = u) : step s = .next u :=
  (step_of_cons hi).trans (congrArg _ hu)

/-- Settles O42: by the mode, what the key event leaves of the state once the event is taken off the list. -/
theorem keyEventsWriteTheKeypad : Obligations.KeyEventsWriteTheKeypad := by
  refine fun s k rest => ⟨fun hm hi => ?up, fun hm hi => ?down, fun hm hi => ?wait, fun hm hi => ?halted⟩
  case up =>
    exact ⟨_, step_of_keyUp hi (keyUp_of_not_halted (s := { s with inputs := rest }) hm k), rfl, State.keypad_setKey_false _ k⟩
  case down =>
    exact ⟨_, step_of_keyDown hi (keyDown_of_run (s := { s with inputs := rest }) hm k), rfl, State.keypad_setKey_true _ k⟩
  case wait =>
    exact ⟨_, step_of_keyDown hi (keyDown_of_waitKey (s := { s with inputs := rest }) hm k), rfl, State.keypad_setKey_true _ k,
      State.reg_setReg_key_toNat _ s.waitX k, fun q hq => State.reg_setReg_ne hq, countDown_toNat s.dt, countDown_toNat s.st⟩
  case halted =>
    obtain hup | hdown := hi
    · exact step_of_keyUp hup (keyUp_of_halted (s := { s with inputs := rest }) hm k)
    · exact step_of_keyDown hdown (keyDown_of_halted (s := { s with inputs := rest }) hm k)

/-! The sound timer (R196). -/

theorem State.soundOn_iff (s : State) : s.soundOn = true ↔ 0 < s.st.toNat := by
  rw [State.soundOn, bne_iff_ne, Nat.pos_iff_ne_zero, ne_eq, ne_eq, ← BitVec.toNat_inj]
  rfl

/-- Settles O14: after a timer step ST is one lower, so it is above 0 when it was above 1. -/
theorem soundIsOnWhileSoundTimerRuns : Obligations.SoundIsOnWhileSoundTimerRuns := by
  refine fun s => ⟨s.soundOn_iff, s.timerStep.soundOn_iff.trans ?_⟩
  rw [State.timerStep_st, countDown_toNat]
  exact Nat.sub_pos_iff_lt

/-! The timer step (R195): which steps make it. -/

/-- `t` has the timers of `s` after one timer step. -/
def TimersStepped (s t : State) : Prop := t.dt = countDown s.dt ∧ t.st = countDown s.st

/-- `t` has the timers of `s`. -/
def TimersKept (s t : State) : Prop := t.dt = s.dt ∧ t.st = s.st

/-- The two ends of a tick at which the timers step: a TICK in `RUN` that ends in `RUN`, and a KEY_DOWN that ends a key wait. -/
def TickCompletes (s t : State) : Prop :=
  (TickIsNext s ∧ s.mode = .run ∧ t.mode = .run) ∨ (s.mode = .waitKey ∧ ∃ k, s.inputs.head? = some (.keyDown k))

/-- A tick in `RUN` makes the timer step exactly when it ends in `RUN`: an unsupported word does, a fault and a key wait do not
(R195, D14). -/
theorem runTick_timers {r : Draw} {s t : State} (hm : s.mode = .run) (h : runTick r s = .next t) :
    (t.mode = .run ∧ TimersStepped s t) ∨ (t.mode ≠ .run ∧ TimersKept s t) := by
  obtain ⟨-, rfl⟩ | ⟨-, i, u, -, hx, rfl⟩ | ⟨-, -, rfl⟩ := runTick_cases hm h
  · exact .inr ⟨by simp, rfl, rfl⟩
  · obtain ⟨hdt, hst, -⟩ := (effect_of_exec hx).timers_keypad
    by_cases hu : u.mode = .run
    · rw [if_pos hu]
      exact .inl ⟨hu, congrArg countDown hdt, congrArg countDown hst⟩
    · rw [if_neg hu]
      exact .inr ⟨hu, hdt, hst⟩
  · exact .inl ⟨hm, rfl, rfl⟩

theorem keyDown_timersStepped {s : State} (h : s.mode = .waitKey) (k : Key) : TimersStepped s (keyDown k s) := by
  rw [keyDown_of_waitKey h]
  exact ⟨rfl, rfl⟩

theorem keyDown_timersKept {s : State} (h : s.mode ≠ .waitKey) (k : Key) : TimersKept s (keyDown k s) := by
  rw [keyDown_of_not_waiting h]
  exact ⟨rfl, rfl⟩

theorem keyUp_timersKept (k : Key) (s : State) : TimersKept s (keyUp k s) := by
  rw [keyUp_frame]
  exact ⟨rfl, rfl⟩

theorem present_timersKept (s : State) : TimersKept s (present s) := by
  rw [present_frame]
  exact ⟨rfl, rfl⟩

theorem load_timersKept {a : Fin 4096} {b : Byte} {s t : State} (h : load a b s = .next t) : TimersKept s t := by
  rw [load_frame h]
  exact ⟨rfl, rfl⟩

/-- A step whose event is no TICK completes a tick only as a KEY_DOWN in a key wait. -/
theorem tickCompletes_of_cons {s t : State} {e : Input} {rest : List Input} (hi : s.inputs = e :: rest)
    (he : ∀ r, e ≠ .tick r) : TickCompletes s t ↔ s.mode = .waitKey ∧ ∃ k, e = .keyDown k := by
  simp [TickCompletes, TickIsNext, hi, he]

/-- A step whose event is a TICK completes it when the machine runs before and after. -/
theorem tickCompletes_of_tickIsNext {s t : State} (h : TickIsNext s) :
    TickCompletes s t ↔ s.mode = .run ∧ t.mode = .run := by
  have hkey : ¬∃ k, s.inputs.head? = some (.keyDown k) := by
    rintro ⟨k, hk⟩
    obtain ⟨r, hr⟩ : ∃ r, Input.keyDown k = .tick r := by rwa [TickIsNext, hk] at h
    cases hr
  simp [TickCompletes, h, hkey]

/-- What a step other than RESET does to the timers, by the event it takes (R195). -/
theorem step_timers {s t : State} (h : step s = .next t) (hreset : s.inputs.head? ≠ some .reset) :
    (TickCompletes s t ∧ TimersStepped s t) ∨ (¬TickCompletes s t ∧ TimersKept s t) := by
  rcases step_cases h with ⟨htick, hm, r, rest, d, -, hrun⟩ | ⟨htick, hm, rfl⟩ | ⟨k, rest, hi, rfl⟩ |
    ⟨k, rest, hi, rfl⟩ | ⟨rest, hi, rfl⟩ | ⟨a, b, rest, hi, hload⟩ | ⟨rest, hi, -⟩
  · rw [tickCompletes_of_tickIsNext htick]
    obtain ⟨ht, htimers⟩ | ⟨ht, htimers⟩ := runTick_timers (s := { s with inputs := rest, draws := d }) hm hrun
    · exact .inl ⟨⟨hm, ht⟩, htimers⟩
    · exact .inr ⟨fun hc => ht hc.2, htimers⟩
  · rw [tickCompletes_of_tickIsNext htick]
    exact .inr ⟨fun hc => hm hc.1, rfl, rfl⟩
  · rw [tickCompletes_of_cons hi (by simp)]
    by_cases hm : s.mode = .waitKey
    · exact .inl ⟨⟨hm, k, rfl⟩, keyDown_timersStepped (s := { s with inputs := rest }) hm k⟩
    · exact .inr ⟨fun hc => hm hc.1, keyDown_timersKept (s := { s with inputs := rest }) hm k⟩
  · rw [tickCompletes_of_cons hi (by simp)]
    exact .inr ⟨by simp, keyUp_timersKept k { s with inputs := rest }⟩
  · rw [tickCompletes_of_cons hi (by simp)]
    exact .inr ⟨by simp, present_timersKept { s with inputs := rest }⟩
  · rw [tickCompletes_of_cons hi (by simp)]
    exact .inr ⟨by simp, load_timersKept (s := { s with inputs := rest }) hload⟩
  · exact absurd (by rw [hi]; rfl) hreset

/-- Settles O13: a timer step is a subtraction that stops at 0 on each timer. -/
theorem timersCountDownOncePerCompletedTick : Obligations.TimersCountDownOncePerCompletedTick := by
  intro s t h hreset
  obtain ⟨hcompletes, hdt, hst⟩ | ⟨hnot, hkept⟩ := step_timers h hreset
  · refine ⟨fun _ => ?_, fun hnot => absurd hcompletes hnot⟩
    rw [hdt, hst]
    exact ⟨countDown_toNat s.dt, countDown_toNat s.st⟩
  · exact ⟨fun hcompletes => absurd hcompletes hnot, fun _ => hkept⟩

end Sys2Proof.Machine
end

section
/-! PROOFS of the family 60_exceptions.md: what a step answers (every instruction, and so every tick, answers a next state, and the one
refusal is a late LOAD), and the fault sequence with what the events do after it (R211). -/

namespace Sys2Proof.Machine

/-! What a step answers. -/

theorem exec_ret_next (s : State) : ∃ t, exec .ret s = .next t := by
  rcases Nat.eq_zero_or_pos s.sp.val with hempty | hpos
  · exact ⟨_, exec_ret_of_empty hempty⟩
  · exact ⟨_, exec_ret_of_pos hpos⟩

theorem exec_call_next (nnn : Addr) (s : State) : ∃ t, exec (.call nnn) s = .next t := by
  rcases Nat.lt_or_ge s.sp.val 16 with hfree | hfull
  · exact ⟨_, exec_call_of_lt nnn hfree⟩
  · exact ⟨_, exec_call_of_full nnn (by omega)⟩

theorem exec_drw_next (x y : RegIdx) (n : Nibble) (s : State) : ∃ t, exec (.drw x y n) s = .next t := by
  obtain ⟨u, -, hexec⟩ := exec_drw_drawn s x y n
  exact ⟨_, hexec⟩

theorem exec_skp_next (x : RegIdx) (s : State) : ∃ t, exec (.skp x) s = .next t := by
  rcases Nat.lt_or_ge (s.reg x).toNat 16 with hkey | hbounds
  · exact ⟨_, exec_skp_of_lt hkey⟩
  · exact ⟨_, exec_skp_of_gt hbounds⟩

theorem exec_sknp_next (x : RegIdx) (s : State) : ∃ t, exec (.sknp x) s = .next t := by
  rcases Nat.lt_or_ge (s.reg x).toNat 16 with hkey | hbounds
  · exact ⟨_, exec_sknp_of_lt hkey⟩
  · exact ⟨_, exec_sknp_of_gt hbounds⟩

/-- Every instruction answers a next state: the five that can raise a fault take the fault sequence (R211, log 3), and the meaning of
each other one is a state written out. -/
theorem exec_next (i : Instr) (s : State) : ∃ t, exec i s = .next t := by
  cases i with
  | ret => exact exec_ret_next s
  | call nnn => exact exec_call_next nnn s
  | drw x y n => exact exec_drw_next x y n s
  | skp x => exact exec_skp_next x s
  | sknp x => exact exec_sknp_next x s
  | _ => exact ⟨_, rfl⟩

theorem execute_next (w : Word) (s : State) : ∃ t, execute w s = .next t := by
  rw [execute]
  cases decode w with
  | none => exact ⟨_, rfl⟩
  | some i => exact exec_next i s

theorem runTick_next (r : Draw) (s : State) : ∃ t, runTick r s = .next t := by
  rcases Nat.lt_or_ge 4094 s.pc.toNat with hgt | hle
  · exact ⟨_, runTick_of_gt r hgt⟩
  · obtain ⟨u, hu⟩ := execute_next s.nextWord (s.offer r).advance
    rw [runTick_of_le r hle, hu, finishTick_next]
    exact ⟨_, rfl⟩

/-- A step whose event is a TICK answers a next state, in every mode. -/
theorem step_next_of_tickIsNext {s : State} (h : TickIsNext s) : ∃ t, step s = .next t := by
  by_cases hm : s.mode = .run
  · obtain ⟨r, rest, d, hn⟩ := nextTick_of_tickIsNext h
    rw [step_of_nextTick hn hm]
    exact runTick_next r _
  · exact ⟨_, step_of_tick_not_run h hm⟩

/-- The host breaks its duty: the next event is a LOAD, after the first TICK and not in `HALTED` (R42, R244; log 5). -/
def LateLoad (s : State) : Prop :=
  s.started = true ∧ s.mode ≠ .halted ∧ ∃ a b, s.inputs.head? = some (.load a b)

theorem load_of_halted {s : State} (h : s.mode = .halted) (a : Fin 4096) (b : Byte) : load a b s = .next s := by
  simp only [load, h]

theorem load_of_started {s : State} (hs : s.started = true) (hm : s.mode ≠ .halted) (a : Fin 4096) (b : Byte) :
    load a b s = .refused .loadAfterFirstTick := by
  rw [load]
  cases hmode : s.mode with
  | halted => exact absurd hmode hm
  | run => simp only [hs]
  | waitKey => simp only [hs]

theorem step_of_lateLoad {s : State} (h : LateLoad s) : step s = .refused .loadAfterFirstTick := by
  obtain ⟨hs, hm, a, b, hhead⟩ := h
  obtain ⟨rest, hi⟩ := List.head?_eq_some_iff.1 hhead
  rw [step_of_cons hi]
  exact load_of_started (s := { s with inputs := rest }) hs hm a b

/-- A LOAD that breaks no duty changes nothing in `HALTED`, and before the first TICK it writes its byte (R42, R211). -/
theorem step_next_of_load {s : State} {a : Fin 4096} {b : Byte} {rest : List Input} (hi : s.inputs = .load a b :: rest)
    (h : ¬LateLoad s) : ∃ t, step s = .next t := by
  by_cases hm : s.mode = .halted
  · exact ⟨_, (step_of_cons hi).trans (load_of_halted (s := { s with inputs := rest }) hm a b)⟩
  · have hs : s.started = false := Bool.eq_false_iff.2 fun hs => h ⟨hs, hm, a, b, by rw [hi]; rfl⟩
    exact ⟨_, step_of_load hi hs hm⟩

/-- Every other step answers a next state, by the event it takes. -/
theorem step_next_of_not_lateLoad {s : State} (h : ¬LateLoad s) : ∃ t, step s = .next t := by
  cases hi : s.inputs with
  | nil => exact step_next_of_tickIsNext (tickIsNext_of_nextTick (.inr ⟨hi, rfl, rfl, rfl⟩))
  | cons e rest =>
    cases e with
    | tick r => exact step_next_of_tickIsNext (tickIsNext_of_nextTick (.inl ⟨hi, rfl⟩))
    | load a b => exact step_next_of_load hi h
    | keyDown | keyUp | present | reset => exact ⟨_, step_of_cons hi⟩

/-- Settles O46: a late LOAD is refused, and every other step answers a next state. -/
theorem onlyALateLoadIsRefused : Obligations.OnlyALateLoadIsRefused := by
  intro s
  by_cases h : LateLoad s
  · rw [step_of_lateLoad h]
    exact ⟨nofun, fun _ => h, fun _ => ⟨_, rfl⟩⟩
  · obtain ⟨t, ht⟩ := step_next_of_not_lateLoad h
    rw [ht]
    exact ⟨nofun, nofun, fun hlate => absurd hlate h⟩

/-! The fault sequence (R211). -/

/-- A tick that has raised a fault ends there, with no timer step (R211, D18). -/
theorem finishTick_raise (f : Fault) (info : Option Nat) (s : State) : finishTick (raise f info s) = raise f info s := by
  rw [raise, finishTick_next, State.halt_mode, if_neg nofun]

theorem tick_of_halted {s : State} (h : s.mode = .halted) (r : Draw) : tick r s = .next s := by simp only [tick, h]

theorem present_of_halted {s : State} (h : s.mode = .halted) : present s = s := by simp only [present, h]

/-- In `HALTED` no event but RESET does anything (R211). -/
theorem handleInput_of_halted {s : State} (h : s.mode = .halted) {e : Input} (he : e ≠ .reset) :
    handleInput e s = .next s := by
  cases e with
  | tick r => exact tick_of_halted h r
  | keyDown k => exact congrArg _ (keyDown_of_halted h k)
  | keyUp k => exact congrArg _ (keyUp_of_halted h k)
  | present => exact congrArg _ (present_of_halted h)
  | load a b => exact load_of_halted h a b
  | reset => exact absurd rfl he

/-- Settles O43: `raise` is the fault sequence as written; in `HALTED` an event is taken off the list and does nothing more. -/
theorem faultSequenceHaltsUntilReset : Obligations.FaultSequenceHaltsUntilReset := by
  refine ⟨fun f info s => ⟨rfl, finishTick_raise f info s⟩,
    fun s hm => ⟨?noEvent, fun e rest hi he => ?event, fun rest hi => ?reset⟩⟩
  case noEvent =>
    have hnot : s.mode ≠ .run := by rw [hm]; nofun
    exact (tickOutsideRunChangesNothing s hnot).1
  case event => exact (step_of_cons hi).trans (handleInput_of_halted (s := { s with inputs := rest }) hm he)
  case reset => exact ⟨_, step_of_cons hi, rfl, rfl⟩

end Sys2Proof.Machine
end

section
/-! PROOFS of the family 70_reset_and_hazards.md: font installation (R242) and PRESENT (R248). Font installation is one case
of a run of LOAD events (`run_loadInputs`); that a second one changes nothing is a fact about writing the same bytes twice. -/

namespace Sys2Proof.Machine

/-! PRESENT outside `HALTED` follows the redraw flag alone. -/

theorem present_of_no_redraw {s : State} (h : s.shouldRedraw = false) : present s = s := by
  unfold present
  split
  · rfl
  · rfl
  · next hr _ => exact absurd (hr.symm.trans h) (by decide)

theorem present_of_redraw {s : State} (hm : s.mode ≠ .halted) (h : s.shouldRedraw = true) :
    present s = { s with shouldRedraw := false, outputs := .frame s.fb :: s.outputs } := by
  unfold present
  split
  · next hmode => exact absurd hmode hm
  · next hr _ => exact absurd (h.symm.trans hr) (by decide)
  · rfl

/-- Settles O37: by the redraw flag, and in `HALTED` by `present_of_halted`. -/
theorem presentShowsTheFrameAndClearsTheFlag : Obligations.PresentShowsTheFrameAndClearsTheFlag := by
  intro s rest hi
  have hstep : step s = .next (present { s with inputs := rest }) := step_of_cons hi
  rw [hstep]
  refine ⟨fun ⟨hm, hr⟩ => ?shows, ?nothing⟩
  case shows => rw [present_of_redraw (s := { s with inputs := rest }) hm hr]
  case nothing =>
    rintro (hm | hr)
    · rw [present_of_halted (s := { s with inputs := rest }) hm]
    · rw [present_of_no_redraw (s := { s with inputs := rest }) hr]

/-- Writing the same bytes twice at one place is writing them once: a canonical memory is what it reads. -/
theorem Memory.writeBytes_twice {m : Memory} {base : Nat} {bs : List Byte} (hm : m.wf = true)
    (h : base + bs.length ≤ 4096) : (m.writeBytes base bs).writeBytes base bs = m.writeBytes base bs := by
  have hm' : (m.writeBytes base bs).wf = true := Memory.wf_writeBytes hm h
  refine Memory.ext_read (Memory.wf_writeBytes hm' h) hm' fun c => ?_
  rw [Memory.read_writeBytes hm' h, Memory.read_writeBytes hm h]
  split_ifs <;> rfl

/-- Main memory with the font installed (R242). -/
def Memory.withFont (m : Memory) (font : Vector Byte 80) : Memory := m.writeBytes 0 font.toList

section
variable {m : Memory} (font : Vector Byte 80)

/-- The font region lies inside main memory (R61). -/
theorem font_fits : 0 + font.toList.length ≤ 4096 := by
  rw [Vector.length_toList]; decide

theorem Memory.wf_withFont (hm : m.wf = true) : (m.withFont font).wf = true := Memory.wf_writeBytes hm (font_fits font)

theorem Memory.withFont_withFont (hm : m.wf = true) : (m.withFont font).withFont font = m.withFont font :=
  Memory.writeBytes_twice hm (font_fits font)

theorem Memory.read_withFont_of_lt (hm : m.wf = true) (a : Fin 80) : (m.withFont font).read a.val = font[a.val] := by
  have hlen : font.toList.length = 80 := Vector.length_toList
  rw [Memory.withFont, Memory.read_writeBytes hm (font_fits font), if_pos (by omega), Nat.sub_zero,
    List.getD_eq_getElem _ _ (by omega), Vector.getElem_toList]

theorem Memory.read_withFont_of_ge (hm : m.wf = true) {a : Nat} (ha : 80 ≤ a) : (m.withFont font).read a = m.read a := by
  have hlen : font.toList.length = 80 := Vector.length_toList
  rw [Memory.withFont, Memory.read_writeBytes hm (font_fits font), if_neg (by omega)]

/-- The 80 events of the font installation, before the first TICK, install the font and do nothing else (R242). -/
theorem run_fontInputs {s : State} (hs : s.started = false) (hm : s.mode ≠ .halted) (rest : List Input) (k : Nat) :
    Host.Core.run Sys2Proof.core (80 + k) { s with inputs := fontInputs font ++ rest } =
      Host.Core.run Sys2Proof.core k { s with inputs := rest, mem := s.mem.withFont font } := by
  have hrun := run_loadInputs (s := { s with inputs := fontInputs font ++ rest }) (font_fits font) rfl hs hm k
  rwa [Vector.length_toList] at hrun

end

/-- Settles O55: the run installs the font, and `Memory.withFont_withFont` makes the second run end where the first does. -/
theorem fontInstallIsIdempotent : Obligations.FontInstallIsIdempotent := by
  intro font s rest hs hm hwf
  refine ⟨{ s with inputs := rest, mem := s.mem.withFont font }, ?once, ?twice, rfl, Memory.wf_withFont font hwf,
    Memory.read_withFont_of_lt font hwf, fun a => Memory.read_withFont_of_ge font hwf⟩
  case once => exact run_fontInputs font hs hm rest 0
  case twice =>
    calc Host.Core.run Sys2Proof.core (80 + 80) { s with inputs := fontInputs font ++ (fontInputs font ++ rest) }
      _ = Host.Core.run Sys2Proof.core (80 + 0)
            { s with inputs := fontInputs font ++ rest, mem := s.mem.withFont font } := run_fontInputs font hs hm _ 80
      _ = .next { s with inputs := rest, mem := (s.mem.withFont font).withFont font } :=
            run_fontInputs (s := { s with mem := s.mem.withFont font }) font hs hm rest 0
      _ = .next { s with inputs := rest, mem := s.mem.withFont font } := by rw [Memory.withFont_withFont font hwf]

end Sys2Proof.Machine
end

section
/-! PROOFS of the family other, encoding (30_encoding.md): that the decoder and the encoder are inverse to each other (R84, R85), that
the rows of the opcode map exclude one another (R84), and the unsupported words (R86). -/

namespace Sys2Proof

/-! Decoding what was encoded. -/

open Laws.EncodingFitsARow in
/-- The word of every instruction fits a row of the opcode map (R85). -/
theorem encode_fitsARow (i : Instr) : Statement i := by
  cases i with
  | cls => exact cls
  | ret => exact ret
  | jp nnn => exact jp nnn
  | call nnn => exact call nnn
  | seByte x nn => exact seByte x nn
  | sneByte x nn => exact sneByte x nn
  | seReg x y => exact seReg x y
  | ldByte x nn => exact ldByte x nn
  | addByte x nn => exact addByte x nn
  | ldReg x y => exact ldReg x y
  | orReg x y => exact orReg x y
  | andReg x y => exact andReg x y
  | xorReg x y => exact xorReg x y
  | addReg x y => exact addReg x y
  | subReg x y => exact subReg x y
  | shrReg x y => exact shrReg x y
  | subnReg x y => exact subnReg x y
  | shlReg x y => exact shlReg x y
  | sneReg x y => exact sneReg x y
  | ldI nnn => exact ldI nnn
  | jpV0 nnn => exact jpV0 nnn
  | rnd x nn => exact rnd x nn
  | drw x y n => exact drw x y n
  | skp x => exact skp x
  | sknp x => exact sknp x
  | ldDt x => exact ldDt x
  | ldKey x => exact ldKey x

theorem decode_encode (i : Instr) : decode (encode i) = some i := decode_of_fitsARow (encode_fitsARow i)

/-- The two bytes of a word that decodes, the high byte first, decode to its instruction (R63). -/
theorem decodeBytes_of_decode {w : Word} {i : Instr} (h : decode w = some i) (rest : List Byte) :
    decodeBytes (highByte w :: lowByte w :: rest) = .instr i rest := by
  rw [decodeBytes, wordOfBytes_bytes, h]

/-- Settles O1: the word fits a row, at most one row covers it, and its two bytes make it up again. -/
theorem decodeOfEncodeGivesTheInstruction : Obligations.DecodeOfEncodeGivesTheInstruction :=
  fun i _ => ⟨decode_encode i, decodeBytes_of_decode (decode_encode i)⟩

/-! Encoding what was decoded: a word is its family nibble and its fields. -/

section
variable {w : Word} {f : BitVec 4}

theorem family_append_fieldNNN (h : w.toNat / 4096 = f.toNat) : f ++ fieldNNN w = w := by
  apply BitVec.eq_of_toNat_eq
  rw [wordA_toNat, fieldNNN_toNat, ← h]
  omega

theorem family_append_fieldX_byte {c : Byte} (h : w.toNat / 4096 = f.toNat) (hc : w.toNat % 256 = c.toNat) :
    f ++ regBits (fieldX w) ++ c = w := by
  apply BitVec.eq_of_toNat_eq
  rw [wordXK_toNat, regBits_toNat, fieldX_val, ← h, ← hc]
  omega

theorem family_append_fieldX_fieldY_nibble {c : Nibble} (h : w.toNat / 4096 = f.toNat) (hc : w.toNat % 16 = c.toNat) :
    f ++ regBits (fieldX w) ++ regBits (fieldY w) ++ c = w := by
  apply BitVec.eq_of_toNat_eq
  rw [wordXY_toNat, regBits_toNat, regBits_toNat, fieldX_val, fieldY_val, ← h, ← hc]
  omega

end

/-- Every word the row covers is the encoding of what the row builds from it. -/
def OpcodeRow.EncodesBack (r : OpcodeRow) : Prop := ∀ w, r.covers w = true → encode (r.build w) = w

section
variable {m : Word} (f : BitVec 4)

/-- The rows of format A (R82): the mask keeps the family nibble. -/
theorem encodesBack_formatA {g : Addr → Instr} (hm : m.toNat = f.toNat * 4096) (hg : ∀ nnn, encode (g nnn) = f ++ nnn) :
    OpcodeRow.EncodesBack ⟨0xF000, m, fun w => g (fieldNNN w)⟩ := by
  intro w hc
  have hw : (w &&& 0xF000#16).toNat = m.toNat := (covers_iff _ w).1 hc
  obtain ⟨-, hmask, -, -⟩ := and_mask w
  rw [hmask, hm] at hw
  exact (hg _).trans (family_append_fieldNNN (by omega))

/-- The rows of format XK: the mask keeps the family nibble. -/
theorem encodesBack_formatXK {g : RegIdx → Byte → Instr} (hm : m.toNat = f.toNat * 4096)
    (hg : ∀ x nn, encode (g x nn) = f ++ regBits x ++ nn) :
    OpcodeRow.EncodesBack ⟨0xF000, m, fun w => g (fieldX w) (fieldNN w)⟩ := by
  intro w hc
  have hw : (w &&& 0xF000#16).toNat = m.toNat := (covers_iff _ w).1 hc
  obtain ⟨-, hmask, -, -⟩ := and_mask w
  rw [hmask, hm] at hw
  exact (hg _ _).trans (family_append_fieldX_byte (by omega) (fieldNN_toNat w).symm)

/-- The row of format XYN: the mask keeps the family nibble. -/
theorem encodesBack_formatXYN {g : RegIdx → RegIdx → Nibble → Instr} (hm : m.toNat = f.toNat * 4096)
    (hg : ∀ x y n, encode (g x y n) = f ++ regBits x ++ regBits y ++ n) :
    OpcodeRow.EncodesBack ⟨0xF000, m, fun w => g (fieldX w) (fieldY w) (fieldN w)⟩ := by
  intro w hc
  have hw : (w &&& 0xF000#16).toNat = m.toNat := (covers_iff _ w).1 hc
  obtain ⟨-, hmask, -, -⟩ := and_mask w
  rw [hmask, hm] at hw
  exact (hg _ _ _).trans (family_append_fieldX_fieldY_nibble (by omega) (fieldN_toNat w).symm)

/-- The rows of format XY: the mask keeps the low nibble as well. -/
theorem encodesBack_formatXY (c : Nibble) {g : RegIdx → RegIdx → Instr} (hm : m.toNat = f.toNat * 4096 + c.toNat)
    (hg : ∀ x y, encode (g x y) = f ++ regBits x ++ regBits y ++ c) :
    OpcodeRow.EncodesBack ⟨0xF00F, m, fun w => g (fieldX w) (fieldY w)⟩ := by
  intro w hc
  have hw : (w &&& 0xF00F#16).toNat = m.toNat := (covers_iff _ w).1 hc
  have := c.isLt
  obtain ⟨-, -, hmask, -⟩ := and_mask w
  rw [hmask, hm] at hw
  exact (hg _ _).trans (family_append_fieldX_fieldY_nibble (by omega) (by omega))

/-- The rows of format XS: the mask keeps the low byte as well. -/
theorem encodesBack_formatXS (c : Byte) {g : RegIdx → Instr} (hm : m.toNat = f.toNat * 4096 + c.toNat)
    (hg : ∀ x, encode (g x) = f ++ regBits x ++ c) : OpcodeRow.EncodesBack ⟨0xF0FF, m, fun w => g (fieldX w)⟩ := by
  intro w hc
  have hw : (w &&& 0xF0FF#16).toNat = m.toNat := (covers_iff _ w).1 hc
  have := c.isLt
  obtain ⟨-, -, -, hmask⟩ := and_mask w
  rw [hmask, hm] at hw
  exact (hg _).trans (family_append_fieldX_byte (by omega) (by omega))

/-- The rows of one word: the mask keeps all of it. -/
theorem encodesBack_word {i : Instr} (hi : encode i = m) : OpcodeRow.EncodesBack ⟨0xFFFF, m, fun _ => i⟩ := by
  intro w hc
  have hw : (w &&& 0xFFFF#16).toNat = m.toNat := (covers_iff _ w).1 hc
  obtain ⟨hmask, -, -, -⟩ := and_mask w
  rw [hmask] at hw
  exact hi.trans (BitVec.eq_of_toNat_eq hw).symm

end

theorem opcodeMap_encodesBack : ∀ r ∈ opcodeMap, r.EncodesBack := by
  simp only [opcodeMap, List.forall_mem_cons]
  exact ⟨encodesBack_word (i := .cls) rfl, encodesBack_word (i := .ret) rfl,
    encodesBack_formatA 0x1 (g := .jp) rfl fun _ => rfl,
    encodesBack_formatA 0x2 (g := .call) rfl fun _ => rfl,
    encodesBack_formatXK 0x3 (g := .seByte) rfl fun _ _ => rfl,
    encodesBack_formatXK 0x4 (g := .sneByte) rfl fun _ _ => rfl,
    encodesBack_formatXY 0x5 0x0 (g := .seReg) rfl fun _ _ => rfl,
    encodesBack_formatXK 0x6 (g := .ldByte) rfl fun _ _ => rfl,
    encodesBack_formatXK 0x7 (g := .addByte) rfl fun _ _ => rfl,
    encodesBack_formatXY 0x8 0x0 (g := .ldReg) rfl fun _ _ => rfl,
    encodesBack_formatXY 0x8 0x1 (g := .orReg) rfl fun _ _ => rfl,
    encodesBack_formatXY 0x8 0x2 (g := .andReg) rfl fun _ _ => rfl,
    encodesBack_formatXY 0x8 0x3 (g := .xorReg) rfl fun _ _ => rfl,
    encodesBack_formatXY 0x8 0x4 (g := .addReg) rfl fun _ _ => rfl,
    encodesBack_formatXY 0x8 0x5 (g := .subReg) rfl fun _ _ => rfl,
    encodesBack_formatXY 0x8 0x6 (g := .shrReg) rfl fun _ _ => rfl,
    encodesBack_formatXY 0x8 0x7 (g := .subnReg) rfl fun _ _ => rfl,
    encodesBack_formatXY 0x8 0xE (g := .shlReg) rfl fun _ _ => rfl,
    encodesBack_formatXY 0x9 0x0 (g := .sneReg) rfl fun _ _ => rfl,
    encodesBack_formatA 0xA (g := .ldI) rfl fun _ => rfl,
    encodesBack_formatA 0xB (g := .jpV0) rfl fun _ => rfl,
    encodesBack_formatXK 0xC (g := .rnd) rfl fun _ _ => rfl,
    encodesBack_formatXYN 0xD (g := .drw) rfl fun _ _ _ => rfl,
    encodesBack_formatXS 0xE 0x9E (g := .skp) rfl fun _ => rfl,
    encodesBack_formatXS 0xE 0xA1 (g := .sknp) rfl fun _ => rfl,
    encodesBack_formatXS 0xF 0x07 (g := .ldDt) rfl fun _ => rfl,
    encodesBack_formatXS 0xF 0x0A (g := .ldKey) rfl fun _ => rfl,
    nofun⟩

/-- Settles O2: the row the decoder found covers the word, and every row encodes back. -/
theorem encodeOfDecodeGivesTheWord : Obligations.EncodeOfDecodeGivesTheWord := by
  intro w i h
  obtain ⟨r, hfind, rfl⟩ := Option.map_eq_some_iff.1 h
  exact opcodeMap_encodesBack r (List.mem_of_find?_eq_some hfind) w (List.find?_some (p := (OpcodeRow.covers · w)) hfind)

/-- Settles O3. -/
theorem opcodeMapRowsAreDisjoint : Obligations.OpcodeMapRowsAreDisjoint :=
  ⟨rfl, fun _ _ _ => opcodeMap_covers_unique⟩

/-! The unsupported words (R86). -/

/-- A number is its family nibble and what is below it. -/
theorem family_add_low_eq_iff {f low : Nat} (c : Nat) (h : low < 4096) :
    f * 4096 + low = c ↔ f = c / 4096 ∧ low = c % 4096 := by omega

/-- What it is to match a row of the opcode map, for each of its four masks: the row's family nibble, and its low bits as far as the
mask keeps them (R85). -/
theorem and_mask_eq_iff (w : Word) (c : Nat) :
    ((w &&& 0xFFFF#16).toNat = c ↔ w.toNat / 4096 = c / 4096 ∧ w.toNat % 4096 = c % 4096) ∧
      ((w &&& 0xF000#16).toNat = c ↔ w.toNat / 4096 = c / 4096 ∧ 0 = c % 4096) ∧
      ((w &&& 0xF00F#16).toNat = c ↔ w.toNat / 4096 = c / 4096 ∧ w.toNat % 16 = c % 4096) ∧
      ((w &&& 0xF0FF#16).toNat = c ↔ w.toNat / 4096 = c / 4096 ∧ w.toNat % 256 = c % 4096) := by
  obtain ⟨hword, hfamily, hnibble, hbyte⟩ := and_mask w
  rw [hword, hfamily, hnibble, hbyte]
  refine ⟨?word, ?family, family_add_low_eq_iff c (by omega), family_add_low_eq_iff c (by omega)⟩
  case word => rw [← family_add_low_eq_iff c (by omega), Nat.div_add_mod']
  case family => rw [← family_add_low_eq_iff c (by decide), Nat.add_zero]

/-- A word is unsupported when it matches no row (R84, R86). -/
theorem decode_eq_none_iff (w : Word) :
    decode w = none ↔ ∀ r ∈ opcodeMap, ¬(w &&& r.mask).toNat = r.mtch.toNat := by
  rw [decode, Option.map_eq_none_iff, List.find?_eq_none]
  simp only [covers_iff]

/-- Settles O4: each row asks for a family nibble and some low bits, and so does each line of the table; they are compared family by
family. -/
theorem unsupportedWordsAreTheTableOfUnsupportedSpace : Obligations.UnsupportedWordsAreTheTableOfUnsupportedSpace := by
  intro w
  have hmask := and_mask_eq_iff w
  have hword (c : Nat) (hc : c < 4096) : w.toNat = c ↔ w.toNat / 4096 = 0 ∧ w.toNat % 4096 = c := by omega
  have hfamily : w.toNat / 4096 < 16 := by omega
  have hnibble : w.toNat % 16 < 16 := Nat.mod_lt _ (by decide)
  rw [decode_eq_none_iff, ne_eq, ne_eq, hword 0x00E0 (by decide), hword 0x00EE (by decide)]
  simp only [opcodeMap, List.forall_mem_cons, BitVec.ofNat_eq_ofNat, BitVec.toNat_ofNat, hmask, Nat.reducePow, Nat.reduceMod,
    Nat.reduceDiv]
  clear hmask hword
  generalize w.toNat / 4096 = f at *
  generalize w.toNat % 16 = n at *
  interval_cases f <;> simp <;> omega

/-- Settles O6: the six supported words are encodings, and the other three are in the table of unsupported space. -/
theorem sampleWordsDecodeAsTheSpecLists : Obligations.SampleWordsDecodeAsTheSpecLists := by
  have supported (i : Instr) {w : Word} (hw : encode i = w) : decode w = some i := hw ▸ decode_encode i
  have unsupported (w : Word) := (unsupportedWordsAreTheTableOfUnsupportedSpace w).2
  exact ⟨supported (.jp 0xABC) rfl, supported (.seByte 0xA 0x7F) rfl, supported (.subnReg 0xA 0xB) rfl,
    supported (.drw 1 2 5) rfl, supported (.sknp 1) rfl, supported (.ldKey 1) rfl, unsupported 0x8AB8 (by decide),
    unsupported 0xF155 (by decide), unsupported 0x0000 (by decide)⟩

end Sys2Proof
end

section
/-! PROOFS of the family other, instructions and ticks (40_tick_fetch_dispatch.md, 41_control_flow.md, 45_keypad_timer.md,
60_exceptions.md): what an instruction answers, where `PC` is after a tick (R107), the key wait (R193), settled states (R245). -/

namespace Sys2Proof.Machine

open Laws

/-! What every instruction answers. -/

/-- Settles O44. -/
theorem everyInstructionAnswersANextState : Obligations.EveryInstructionAnswersANextState := exec_next

/-- Settles O48: no effect of the table "Writers" is on memory. -/
theorem noInstructionWritesMemory : Obligations.NoInstructionWritesMemory :=
  fun _ _ _ h a => congrArg (Memory.read · a) (effect_of_exec h).mem

/-- The row of the table "Faults" for the instruction, as a relation of the states before and after it (R210, R212). -/
def FaultRow (i : Instr) (s t : State) : Prop :=
  match faultOf s i with
  | some (f, info) => t = s.halt f info
  | none => t.mode ≠ .halted ∧ t.fault = s.fault ∧ t.outputs = s.outputs

section
variable {i : Instr} {s t : State}

theorem State.sp_val_lt_of_ne (h : s.sp ≠ 16) : s.sp.val < 16 :=
  Nat.lt_of_le_of_ne (Nat.le_of_lt_succ s.sp.isLt) fun h16 => h (Fin.ext h16)

theorem State.sp_val_pos_of_ne (h : s.sp ≠ 0) : 0 < s.sp.val := Nat.pos_of_ne_zero fun h0 => h (Fin.ext h0)

theorem faultRow_of_fault {f : Fault} {info : Option Nat} (hf : faultOf s i = some (f, info)) (hx : exec i s = raise f info s)
    (h : exec i s = .next t) : FaultRow i s t := by
  rw [FaultRow, hf]
  cases hx.symm.trans h
  rfl

theorem faultRow_of_completes {u : State} (hf : faultOf s i = none) (hx : exec i s = .next u) (hm : u.mode ≠ .halted)
    (hu : u.fault = s.fault ∧ u.outputs = s.outputs) (h : exec i s = .next t) : FaultRow i s t := by
  rw [FaultRow, hf]
  cases hx.symm.trans h
  exact ⟨hm, hu⟩

end

/-- Settles O45: the four instructions that can fault, each by its condition; the meaning of any other is a write that leaves the mode
out of `HALTED`. -/
theorem instructionsFaultExactlyAsTheTableLists : Obligations.InstructionsFaultExactlyAsTheTableLists := by
  intro i s t hm hdrw h
  show FaultRow i s t
  have hnot : s.mode ≠ .halted := by rw [hm]; nofun
  have hskip (c : Bool) : (s.skipIf c).mode ≠ .halted ∧ (s.skipIf c).fault = s.fault ∧ (s.skipIf c).outputs = s.outputs := by
    rw [State.skipIf_eq]; exact ⟨hnot, rfl, rfl⟩
  cases i with
  | ret =>
    by_cases hsp : s.sp = 0
    · exact faultRow_of_fault (if_pos hsp) (exec_ret_of_empty (congrArg Fin.val hsp)) h
    · exact faultRow_of_completes (if_neg hsp) (exec_ret_of_pos (State.sp_val_pos_of_ne hsp)) hnot ⟨rfl, rfl⟩ h
  | call nnn =>
    by_cases hsp : s.sp = 16
    · exact faultRow_of_fault (if_pos hsp) (exec_call_of_full nnn (congrArg Fin.val hsp)) h
    · exact faultRow_of_completes (if_neg hsp) (exec_call_of_lt nnn (State.sp_val_lt_of_ne hsp)) hnot ⟨rfl, rfl⟩ h
  | skp x =>
    by_cases hx : 15 < (s.reg x).toNat
    · exact faultRow_of_fault (if_pos hx) (exec_skp_of_gt hx) h
    · exact faultRow_of_completes (if_neg hx) (exec_skp_of_lt (by omega)) (hskip _).1 (hskip _).2 h
  | sknp x =>
    by_cases hx : 15 < (s.reg x).toNat
    · exact faultRow_of_fault (if_pos hx) (exec_sknp_of_gt hx) h
    · exact faultRow_of_completes (if_neg hx) (exec_sknp_of_lt (by omega)) (hskip _).1 (hskip _).2 h
  | drw x y n => exact absurd rfl (hdrw x y n)
  | seByte | sneByte | seReg | sneReg => exact faultRow_of_completes rfl rfl (hskip _).1 (hskip _).2 h
  | ldKey x => exact faultRow_of_completes rfl rfl nofun ⟨rfl, rfl⟩ h
  | _ => exact faultRow_of_completes rfl rfl hnot ⟨rfl, rfl⟩ h

/-- Settles O40. -/
theorem ldKeyBeginsAKeyWait : Obligations.LdKeyBeginsAKeyWait :=
  fun _ x => ⟨decode_of_encode_eq rfl (EncodingFitsARow.ldKey x), rfl⟩

/-! The tick. -/

/-- Settles O8: the handler answers a next state, and the tick ends on it. -/
theorem stepRunsTheDecodedInstruction : Obligations.StepRunsTheDecodedInstruction := by
  intro s r rest d i hn hm hle hd _
  obtain ⟨t, ht⟩ := exec_next i { handlerState s rest r with draws := d }
  exact ⟨t, ht, step_of_decode hn hm hle hd ht⟩

/-- Settles O10: the fetch fails, and `raise` writes the mode, the fault code and the output event alone. -/
theorem fetchBeyondMemoryHalts : Obligations.FetchBeyondMemoryHalts := by
  intro s r rest d hn hm hgt
  rw [step_of_nextTick hn hm, runTick_of_gt (s := { s with inputs := rest, draws := d }) r hgt]
  rfl

/-! Where `PC` is after a handler that starts past the word at `PC` (R25, R107). -/

/-- Reading a vector through its list, inside its bounds. -/
theorem vector_toList_getD {α : Type} {n k : Nat} (v : Vector α n) (hk : k < n) (a : α) : v.toList.getD k a = v[k] := by
  rw [List.getD_eq_getElem _ _ (by rwa [Vector.length_toList]), Vector.getElem_toList]

theorem vector_toList_getD_of_ge {α : Type} {n k : Nat} (v : Vector α n) (hk : n ≤ k) (a : α) : v.toList.getD k a = a :=
  List.getD_eq_default _ _ (by rwa [Vector.length_toList])

/-! The rows of R107 for the instructions with a condition. -/

section
variable (s : State)

theorem pcAfterTick_call (nnn : Addr) : pcAfterTick s (some (.call nnn)) =
    if s.sp = 16 then s.pc.toNat + 2 else nnn.toNat := rfl

theorem pcAfterTick_ret : pcAfterTick s (some .ret) =
    if s.sp = 0 then s.pc.toNat + 2 else (s.stack.toList.getD (s.sp.val - 1) 0).toNat := rfl

theorem pcAfterTick_skp (x : RegIdx) : pcAfterTick s (some (.skp x)) =
    s.pc.toNat + if s.keypad.toList.getD (s.reg x).toNat false = true then 4 else 2 := rfl

theorem pcAfterTick_sknp (x : RegIdx) : pcAfterTick s (some (.sknp x)) =
    s.pc.toNat + if s.keypad.toList.getD (s.reg x).toNat true = true then 2 else 4 := rfl

end

section
variable {s t : State} (hle : s.pc.toNat ≤ 4094)
include hle

theorem advance_pc_toNat_of_le : s.advance.pc.toNat = s.pc.toNat + 2 := State.advance_pc_toNat (by omega)

theorem skipIf_advance_pc_toNat (c : Bool) : (s.advance.skipIf c).pc.toNat = s.pc.toNat + if c = true then 4 else 2 := by
  have hpc := advance_pc_toNat_of_le hle
  cases c
  · exact hpc
  · exact (State.advance_pc_toNat (by omega)).trans (by rw [hpc]; rfl)

theorem exec_call_pc_toNat {nnn : Addr} (h : exec (.call nnn) s.advance = .next t) :
    t.pc.toNat = pcAfterTick s (some (.call nnn)) := by
  by_cases hsp : s.sp = 16
  · rw [exec_call_of_full (s := s.advance) nnn (congrArg Fin.val hsp)] at h
    cases h
    exact (advance_pc_toNat_of_le hle).trans (if_pos hsp).symm
  · rw [exec_call_of_lt (s := s.advance) nnn (State.sp_val_lt_of_ne hsp)] at h
    cases h
    exact (addrOperand_toNat nnn).trans (if_neg hsp).symm

theorem exec_ret_pc_toNat (h : exec .ret s.advance = .next t) : t.pc.toNat = pcAfterTick s (some .ret) := by
  by_cases hsp : s.sp = 0
  · rw [exec_ret_of_empty (s := s.advance) (congrArg Fin.val hsp)] at h
    cases h
    exact (advance_pc_toNat_of_le hle).trans (if_pos hsp).symm
  · have hpos : 0 < s.sp.val := State.sp_val_pos_of_ne hsp
    rw [exec_ret_of_pos (s := s.advance) hpos] at h
    cases h
    rw [pcAfterTick_ret, if_neg hsp, vector_toList_getD _ (by omega)]
    rfl

theorem exec_skp_pc_toNat {x : RegIdx} (h : exec (.skp x) s.advance = .next t) :
    t.pc.toNat = pcAfterTick s (some (.skp x)) := by
  rw [pcAfterTick_skp]
  rcases Nat.lt_or_ge (s.reg x).toNat 16 with hkey | hbounds
  · rw [exec_skp_of_lt (s := s.advance) hkey] at h
    cases h
    rw [skipIf_advance_pc_toNat hle, vector_toList_getD _ hkey]
    rfl
  · rw [exec_skp_of_gt (s := s.advance) hbounds] at h
    cases h
    rw [vector_toList_getD_of_ge _ hbounds]
    exact advance_pc_toNat_of_le hle

theorem exec_sknp_pc_toNat {x : RegIdx} (h : exec (.sknp x) s.advance = .next t) :
    t.pc.toNat = pcAfterTick s (some (.sknp x)) := by
  rw [pcAfterTick_sknp]
  rcases Nat.lt_or_ge (s.reg x).toNat 16 with hkey | hbounds
  · rw [exec_sknp_of_lt (s := s.advance) hkey] at h
    cases h
    rw [skipIf_advance_pc_toNat hle, vector_toList_getD _ hkey]
    simp only [Bool.not_eq_true', ← Bool.not_eq_true, ite_not]
    rfl
  · rw [exec_sknp_of_gt (s := s.advance) hbounds] at h
    cases h
    rw [vector_toList_getD_of_ge _ hbounds]
    exact advance_pc_toNat_of_le hle

/-- A handler leaves `PC` where R107 lists it. -/
theorem exec_pc_toNat {i : Instr} (h : exec i s.advance = .next t) : t.pc.toNat = pcAfterTick s (some i) := by
  have hkept (hi : writesPc i = false) : t.pc.toNat = s.pc.toNat + 2 := by
    rw [(effect_of_exec h).pc hi, advance_pc_toNat_of_le hle]
  have hskip := skipIf_advance_pc_toNat hle
  cases i with
  | jp nnn => cases h; exact addrOperand_toNat nnn
  | jpV0 nnn => cases h; exact indexedAddr_toNat s.advance nnn
  | call nnn => exact exec_call_pc_toNat hle h
  | ret => exact exec_ret_pc_toNat hle h
  | seByte | seReg =>
    cases h
    refine (hskip _).trans ?_
    simp only [beq_iff_eq]
    rfl
  | sneByte | sneReg =>
    cases h
    refine (hskip _).trans ?_
    simp only [bne_iff_ne, ite_not]
    rfl
  | skp x => exact exec_skp_pc_toNat hle h
  | sknp x => exact exec_sknp_pc_toNat hle h
  | _ => exact hkept rfl

/-- A tick in `RUN` whose fetch succeeds leaves `PC` where R107 lists it: the timer step leaves it alone, and an unsupported word only
moves past itself. -/
theorem runTick_pc_toNat {r : Draw} (hm : s.mode = .run) (h : runTick r s = .next t) :
    t.pc.toNat = pcAfterTick s (decode s.nextWord) := by
  obtain ⟨hgt, -⟩ | ⟨-, i, u, hd, hx, rfl⟩ | ⟨-, hd, rfl⟩ := runTick_cases hm h
  · omega
  · rw [hd, apply_ite State.pc, State.timerStep_pc, ite_self]
    exact exec_pc_toNat (s := s.offer r) hle hx
  · rw [hd]
    exact advance_pc_toNat_of_le hle

end

/-- Settles O12: the step is that tick, and it answers a next state. -/
theorem netMovementOfPcInATick : Obligations.NetMovementOfPcInATick := by
  intro s htick hm hle
  obtain ⟨r, rest, d, hn⟩ := nextTick_of_tickIsNext htick
  obtain ⟨t, ht⟩ := runTick_next r { s with inputs := rest, draws := d }
  exact ⟨t, (step_of_nextTick hn hm).trans ht, runTick_pc_toNat (s := { s with inputs := rest, draws := d }) hle hm ht⟩

/-! The key wait (R193). -/

/-- Settles O41: the tick ends on the first half of FX0A with no timer step, and the KEY_DOWN that follows is one in `WAIT_KEY`. -/
theorem keyWaitDeliversTheFirstKey : Obligations.KeyWaitDeliversTheFirstKey := by
  intro s r k rest d x hn hm hle hd
  have hstep := (step_of_decode hn hm hle hd rfl).trans (congrArg _ (if_neg nofun))
  obtain ⟨-, -, hwait, -⟩ :=
    keyEventsWriteTheKeypad (State.beginWait { handlerState s (.keyDown k :: rest) r with draws := d } x) k rest
  obtain ⟨u, hu, hframe, hkeypad, hreg, hregs, htimers⟩ := hwait rfl rfl
  exact ⟨_, u, hstep, rfl, rfl, advance_pc_toNat_of_le hle, rfl, rfl, rfl, hu, hframe, hreg, hregs, hkeypad, htimers⟩

/-! Settled states (R245). -/

theorem State.settled_iff (s : State) :
    s.settled = true ↔ s.mode = .run ∧ s.pc.toNat ≤ 4094 ∧ s.nextWord = 0x1000 ||| s.pc := by
  simp [State.settled, and_assoc]

/-- A jump to an address below 4096, as a word: the address with the family nibble before it. -/
theorem jump_word_eq {a : Word} (h : a.toNat < 4096) : (0x1000 : Word) ||| a = encode (.jp (a.setWidth 12)) := by
  apply BitVec.eq_of_toNat_eq
  have hor : 2 ^ 12 * 1 ||| a.toNat = 2 ^ 12 * 1 + a.toNat := (Nat.two_pow_add_eq_or_of_lt h 1).symm
  have hlow : (a.setWidth 12).toNat = a.toNat := by rw [BitVec.toNat_setWidth, Nat.mod_eq_of_lt h]
  calc ((0x1000 : Word) ||| a).toNat
    _ = 2 ^ 12 * 1 ||| a.toNat := BitVec.toNat_or _ _
    _ = (0x1#4).toNat * 4096 + (a.setWidth 12).toNat := by rw [hor, hlow]; rfl
    _ = (encode (.jp (a.setWidth 12))).toNat := (wordA_toNat _ _).symm

theorem addrOperand_setWidth {a : Word} (h : a.toNat < 4096) : addrOperand (a.setWidth 12) = a := by
  apply BitVec.eq_of_toNat_eq
  rw [addrOperand_toNat, BitVec.toNat_setWidth, Nat.mod_eq_of_lt h]

/-- Settles O56: the word is a jump to its own address, so that the tick leaves `PC` and steps the timers. -/
theorem settledStatesStaySettled : Obligations.SettledStatesStaySettled := by
  intro s r rest d hs hn
  obtain ⟨hm, hle, hword⟩ := s.settled_iff.1 hs
  have hpc : s.pc.toNat < 4096 := by omega
  have hd : decode s.nextWord = some (.jp (s.pc.setWidth 12)) := by rw [hword, jump_word_eq hpc, decode_encode]
  have hjump : exec (.jp (s.pc.setWidth 12)) { handlerState s rest r with draws := d } =
      .next { s with inputs := rest, draws := d, rnd := drawByte r, started := true } :=
    congrArg (fun a => Host.Outcome.next (State.jump { handlerState s rest r with draws := d } a)) (addrOperand_setWidth hpc)
  have hstep := (step_of_decode hn hm hle hd hjump).trans (congrArg _ (if_pos hm))
  exact ⟨_, hstep, rfl, countDown_toNat s.dt, countDown_toNat s.st, (State.settled_iff _).2 ⟨hm, hle, hword⟩⟩

end Sys2Proof.Machine
end

section
/-! PROOFS of the family other, invariants (70_reset_and_hazards.md section 7, 20_memory.md section 4): main memory after the first TICK
(R67), canonical memory and the control form from any state, and the invariants of a booted machine (R250). -/

namespace Sys2Proof.Machine

/-! Memory after the first TICK (R67). -/

theorem runTick_started {r : Draw} {s t : State} (hm : s.mode = .run) (h : runTick r s = .next t) : t.started = true := by
  obtain ⟨-, rfl⟩ | ⟨-, i, u, -, hx, rfl⟩ | ⟨-, -, rfl⟩ := runTick_cases hm h
  · rfl
  · obtain ⟨-, -, hstarted, -⟩ := (effect_of_exec hx).model_fields
    rwa [apply_ite State.started, State.timerStep_started, ite_self]
  · rfl

/-- Settles O49: after the first TICK a LOAD answers a next state in `HALTED` only, and no other event but RESET writes memory. -/
theorem memoryIsConstantAfterTheFirstTick : Obligations.MemoryIsConstantAfterTheFirstTick := by
  intro s t hs hreset h
  rcases step_cases h with ⟨-, hm, r, rest, d, -, hrun⟩ | ⟨-, -, rfl⟩ | ⟨k, rest, -, rfl⟩ | ⟨k, rest, -, rfl⟩ |
    ⟨rest, -, rfl⟩ | ⟨a, b, rest, -, hload⟩ | ⟨rest, hi, -⟩
  · exact ⟨(runTick_outside_fields hrun hm).2.1, runTick_started (s := { s with inputs := rest, draws := d }) hm hrun⟩
  · exact ⟨rfl, hs⟩
  · rw [keyDown_frame]; exact ⟨rfl, hs⟩
  · rw [keyUp_frame]; exact ⟨rfl, hs⟩
  · rw [present_frame]; exact ⟨rfl, hs⟩
  · obtain ⟨-, rfl⟩ | ⟨-, hnot, -⟩ := load_cases hload
    · exact ⟨rfl, hs⟩
    · exact absurd (hs.symm.trans hnot) nofun
  · exact absurd (by rw [hi]; rfl) hreset

/-! Canonical memory and the control form (R34, R250 f). -/

section
variable {s t : State}

theorem controlInv_of_run (hm : t.mode = .run) (hf : t.fault = none) : ControlInv t :=
  ⟨iff_of_true hf (by rw [hm]; nofun), fun h => absurd hm h⟩

theorem controlInv_of_waitKey (hm : t.mode = .waitKey) (hf : t.fault = none) (hs : t.started = true) : ControlInv t :=
  ⟨iff_of_true hf (by rw [hm]; nofun), fun _ => hs⟩

theorem controlInv_of_halted (hm : t.mode = .halted) {f : Fault} (hf : t.fault = some f) (hs : t.started = true) :
    ControlInv t :=
  ⟨iff_of_false (by rw [hf]; nofun) fun h => h hm, fun _ => hs⟩

/-- A tick in `RUN` ends in one of the three modes with the fault code that goes with it (R33, R34). -/
theorem runTick_controlInv {r : Draw} (hm : s.mode = .run) (hf : s.fault = none) (h : runTick r s = .next t) :
    ControlInv t := by
  have hstarted := runTick_started hm h
  obtain ⟨-, rfl⟩ | ⟨-, i, u, -, hx, rfl⟩ | ⟨-, -, rfl⟩ := runTick_cases hm h
  · exact controlInv_of_halted rfl rfl hstarted
  · have hmode : (if u.mode = .run then u.timerStep else u).mode = u.mode := by
      rw [apply_ite State.mode, State.timerStep_mode, ite_self]
    have hfault : (if u.mode = .run then u.timerStep else u).fault = u.fault := by
      rw [apply_ite State.fault, State.timerStep_fault, ite_self]
    obtain ⟨huf, -, hum | ⟨hum, -⟩⟩ | ⟨f, info, huf, hum, -⟩ := (effect_of_exec hx).fault_mode_outputs
    · exact controlInv_of_run (hmode.trans (hum.trans hm)) (hfault.trans (huf.trans hf))
    · exact controlInv_of_waitKey (hmode.trans hum) (hfault.trans (huf.trans hf)) hstarted
    · exact controlInv_of_halted (hmode.trans hum) (hfault.trans huf) hstarted
  · exact controlInv_of_run hm hf

theorem ControlInv.fault_eq_none (h : ControlInv s) (hm : s.mode ≠ .halted) : s.fault = none := h.1.2 hm

theorem keyDown_controlInv (h : ControlInv s) (k : Key) : ControlInv (keyDown k s) := by
  cases hm : s.mode with
  | run => rw [keyDown_of_run hm]; exact h
  | waitKey =>
    rw [keyDown_of_waitKey hm]
    exact controlInv_of_run rfl (h.fault_eq_none (by rw [hm]; nofun))
  | halted => rw [keyDown_of_halted hm]; exact h

theorem load_controlInv {a : Fin 4096} {b : Byte} (hs : ControlInv s) (h : load a b s = .next t) : ControlInv t := by
  rw [load_frame h]
  exact hs

theorem load_wf {a : Fin 4096} {b : Byte} (hs : s.mem.wf = true) (h : load a b s = .next t) : t.mem.wf = true := by
  obtain ⟨-, rfl⟩ | ⟨-, -, rfl⟩ := load_cases h
  · exact hs
  · exact Memory.wf_write hs a.isLt

end

/-- Settles O59: by the event; an event that leaves memory and the control fields leaves both facts. -/
theorem everyStepKeepsMemoryAndControlForm : Obligations.EveryStepKeepsMemoryAndControlForm := by
  intro s t ⟨hwf, hcontrol⟩ h
  rcases step_cases h with ⟨-, hm, r, rest, d, -, hrun⟩ | ⟨-, -, rfl⟩ | ⟨k, rest, -, rfl⟩ | ⟨k, rest, -, rfl⟩ |
    ⟨rest, -, rfl⟩ | ⟨a, b, rest, -, hload⟩ | ⟨rest, -, rfl⟩
  · have hf : s.fault = none := hcontrol.fault_eq_none (by rw [hm]; nofun)
    refine ⟨?_, runTick_controlInv (s := { s with inputs := rest, draws := d }) hm hf hrun⟩
    rw [(runTick_outside_fields hrun hm).2.1]
    exact hwf
  · exact ⟨hwf, hcontrol⟩
  · rw [keyDown_mem]
    exact ⟨hwf, keyDown_controlInv (s := { s with inputs := rest }) hcontrol k⟩
  · rw [keyUp_frame]; exact ⟨hwf, hcontrol⟩
  · rw [present_frame]; exact ⟨hwf, hcontrol⟩
  · exact ⟨load_wf (s := { s with inputs := rest }) hwf hload, load_controlInv (s := { s with inputs := rest }) hcontrol hload⟩
  · exact ⟨rfl, controlInv_of_run rfl rfl⟩

/-! `I`, `PC` and the call stack (R28, R30, R37, R250 b to d). -/

/-- The parts of the invariant that instructions alone change. -/
def ProgramInv (s : State) : Prop := s.regI.toNat ≤ 0x0FFF ∧ s.pc.toNat ≤ 0x10FE ∧ StackInv s

section
variable {s t : State}

theorem StackInv.congr (h : StackInv s) (hsp : t.sp = s.sp) (hstack : t.stack = s.stack) : StackInv t := by
  unfold StackInv
  rw [hsp, hstack]
  exact h

/-- RET frees the slot it clears. -/
theorem exec_ret_stackInv (hs : StackInv s) (h : exec .ret s = .next t) : StackInv t := by
  rcases Nat.eq_zero_or_pos s.sp.val with hempty | hpos
  · rw [exec_ret_of_empty hempty] at h
    cases h
    exact hs
  · rw [exec_ret_of_pos hpos] at h
    cases h
    intro n
    obtain ⟨hfree, hused⟩ := hs n
    show (s.sp.val - 1 ≤ n.val → _) ∧ (n.val < s.sp.val - 1 → _)
    rw [stack_getElem_set _ (by omega)]
    split_ifs with hn
    · exact ⟨fun _ => rfl, fun hlt => by omega⟩
    · exact ⟨fun hge => hfree (by omega), fun hlt => hused (by omega)⟩

/-- CALL takes a slot for the `PC` it finds, which is past the word of the CALL. -/
theorem exec_call_stackInv {nnn : Addr} (hs : StackInv s) (hpc : 2 ≤ s.pc.toNat ∧ s.pc.toNat ≤ 4096)
    (h : exec (.call nnn) s = .next t) : StackInv t := by
  rcases Nat.lt_or_ge s.sp.val 16 with hlt | hfull
  · rw [exec_call_of_lt nnn hlt] at h
    cases h
    intro n
    obtain ⟨hfree, hused⟩ := hs n
    show (s.sp.val + 1 ≤ n.val → _) ∧ (n.val < s.sp.val + 1 → _)
    rw [stack_getElem_set _ hlt]
    split_ifs with hn
    · exact ⟨fun hge => by omega, fun _ => hpc⟩
    · exact ⟨fun hge => hfree (by omega), fun hlt => hused (by omega)⟩
  · rw [exec_call_of_full nnn (by omega)] at h
    cases h
    exact hs

theorem exec_stackInv {i : Instr} (hs : StackInv s) (hpc : 2 ≤ s.pc.toNat ∧ s.pc.toNat ≤ 4096)
    (h : exec i s = .next t) : StackInv t := by
  have hkept (hi : touchesStack i = false) : StackInv t := by
    obtain ⟨hsp, hstack⟩ := (effect_of_exec h).callStack_eq hi
    exact hs.congr hsp hstack
  cases i with
  | call nnn => exact exec_call_stackInv hs hpc h
  | ret => exact exec_ret_stackInv hs h
  | _ => exact hkept rfl

theorem Effect.regI_le {i : Instr} (h : Effect s i t) (hs : s.regI.toNat ≤ 0x0FFF) : t.regI.toNat ≤ 0x0FFF := by
  cases h with
  | index nnn => exact (addrOperand_toNat nnn).trans_le (Nat.le_of_lt_succ nnn.isLt)
  | _ => exact hs

/-- Every slot in use is at most 4096, the slot on top included. -/
theorem StackInv.top_le (h : StackInv s) (hsp : s.sp ≠ 0) : (s.stack.toList.getD (s.sp.val - 1) 0).toNat ≤ 4096 := by
  have hpos := State.sp_val_pos_of_ne hsp
  have htop : s.sp.val - 1 < 16 := by omega
  rw [vector_toList_getD _ htop]
  exact ((h ⟨s.sp.val - 1, htop⟩).2 (Nat.sub_lt hpos Nat.one_pos)).2

/-- The bound on `PC` after a tick: the sum of BNNN is the largest of the values R107 lists (R28). -/
theorem pcAfterTick_le (hle : s.pc.toNat ≤ 4094) (hstack : StackInv s) (o : Option Instr) :
    pcAfterTick s o ≤ 0x10FE := by
  have haddr (nnn : Addr) : nnn.toNat ≤ 0x0FFF := Nat.le_of_lt_succ nnn.isLt
  have hbyte : (s.reg 0).toNat ≤ 0xFF := Nat.le_of_lt_succ (s.reg 0).isLt
  have hskip (c : Prop) [Decidable c] : s.pc.toNat + (if c then 4 else 2) ≤ 0x10FE := by split <;> omega
  have hskip' (c : Prop) [Decidable c] : s.pc.toNat + (if c then 2 else 4) ≤ 0x10FE := by split <;> omega
  have hnext : s.pc.toNat + 2 ≤ 0x10FE := by omega
  cases o with
  | none => exact hnext
  | some i =>
    cases i with
    | jp nnn => exact (haddr nnn).trans (by decide)
    | call nnn =>
      rw [pcAfterTick_call]
      split
      · exact hnext
      · exact (haddr nnn).trans (by decide)
    | jpV0 nnn => exact Nat.add_le_add (haddr nnn) hbyte
    | ret =>
      rw [pcAfterTick_ret]
      split
      · exact hnext
      · next hsp => exact (hstack.top_le hsp).trans (by decide)
    | seByte | seReg | skp => exact hskip _
    | sneByte | sneReg | sknp => exact hskip' _
    | _ => exact hnext

theorem runTick_programInv {r : Draw} (hm : s.mode = .run) (hs : ProgramInv s) (h : runTick r s = .next t) :
    ProgramInv t := by
  obtain ⟨hI, hpc, hstack⟩ := hs
  have hpcTick (hle : s.pc.toNat ≤ 4094) : t.pc.toNat ≤ 0x10FE := by
    rw [runTick_pc_toNat hle hm h]
    exact pcAfterTick_le hle hstack _
  obtain ⟨-, rfl⟩ | ⟨hle, i, u, -, hx, rfl⟩ | ⟨hle, -, rfl⟩ := runTick_cases hm h
  · exact ⟨hI, hpc, hstack⟩
  · have hadvance : (s.offer r).advance.pc.toNat = s.pc.toNat + 2 := advance_pc_toNat_of_le (s := s.offer r) hle
    have hu : StackInv u := exec_stackInv (s := (s.offer r).advance) hstack (by omega) hx
    refine ⟨?_, hpcTick hle, ?_⟩
    · rw [apply_ite State.regI, State.timerStep_regI, ite_self]
      exact (effect_of_exec hx).regI_le hI
    · exact hu.congr (by rw [apply_ite State.sp, State.timerStep_sp, ite_self])
        (by rw [apply_ite State.stack, State.timerStep_stack, ite_self])
  · exact ⟨hI, hpcTick hle, hstack⟩

theorem stackInv_reset : StackInv State.reset := by
  unfold StackInv
  decide

theorem programInv_reset : ProgramInv State.reset := ⟨by decide, by decide, stackInv_reset⟩

theorem step_programInv (hs : ProgramInv s) (h : step s = .next t) : ProgramInv t := by
  rcases step_cases h with ⟨-, hm, r, rest, d, -, hrun⟩ | ⟨-, -, rfl⟩ | ⟨k, rest, -, rfl⟩ | ⟨k, rest, -, rfl⟩ |
    ⟨rest, -, rfl⟩ | ⟨a, b, rest, -, hload⟩ | ⟨rest, -, rfl⟩
  · exact runTick_programInv (s := { s with inputs := rest, draws := d }) hm hs hrun
  · exact hs
  · rw [keyDown_frame]; exact hs
  · rw [keyUp_frame]; exact hs
  · rw [present_frame]; exact hs
  · rw [load_frame hload]; exact hs
  · exact programInv_reset

/-- Both timers at 0 stay there: no instruction sets one, and a timer step stops at 0 (R32, R250 a). -/
theorem step_timers_zero (hs : s.dt = 0 ∧ s.st = 0) (h : step s = .next t) : t.dt = 0 ∧ t.st = 0 := by
  obtain ⟨hdt, hst⟩ := hs
  by_cases hreset : s.inputs.head? = some .reset
  · obtain ⟨rest, hi⟩ := List.head?_eq_some_iff.1 hreset
    cases (step_of_cons hi).symm.trans h
    exact ⟨rfl, rfl⟩
  · obtain ⟨-, hdt', hst'⟩ | ⟨-, hdt', hst'⟩ := step_timers h hreset
    · rw [hdt', hst', hdt, hst]
      exact ⟨rfl, rfl⟩
    · exact ⟨hdt'.trans hdt, hst'.trans hst⟩

theorem inv_iff : Inv s ↔ (s.dt = 0 ∧ s.st = 0) ∧ ProgramInv s ∧ s.mem.wf = true ∧ ControlInv s := by
  simp only [Inv, ProgramInv, and_assoc, and_comm (a := s.mem.wf = true)]

end

/-- Settles O58: part by part. -/
theorem everyStepKeepsTheInvariants : Obligations.EveryStepKeepsTheInvariants := by
  intro s t hs h
  obtain ⟨htimers, hprogram, hmemory⟩ := inv_iff.1 hs
  exact inv_iff.2 ⟨step_timers_zero htimers h, step_programInv hprogram h, everyStepKeepsMemoryAndControlForm s t hmemory h⟩

/-- Settles O57: memory is written inside its bounds, and everything else is as after reset. -/
theorem bootedStatesSatisfyTheInvariants : Obligations.BootedStatesSatisfyTheInvariants := by
  have hreset {m : Memory} (hm : m.wf = true) : Inv { State.reset with mem := m } :=
    inv_iff.2 ⟨⟨rfl, rfl⟩, programInv_reset, hm, controlInv_of_run rfl rfl⟩
  refine ⟨hreset rfl, fun font image hlen => hreset (Memory.wf_writeBytes (Memory.wf_withFont font rfl) ?_)⟩
  exact Nat.add_le_add_left hlen 512

end Sys2Proof.Machine
end

section
/-! PROOFS of the family other, the symmetry of call and return (41_control_flow.md, R128). -/

namespace Sys2Proof.Machine

theorem runInstrs_cons {i : Instr} {is : List Instr} {s t : State} (h : exec i s = .next t) :
    runInstrs (i :: is) s = runInstrs is t := by
  rw [runInstrs, h]

theorem runInstrs_append {is js : List Instr} {s t : State} (h : runInstrs is s = .next t) :
    runInstrs (is ++ js) s = runInstrs js t := by
  induction is generalizing s with
  | nil => cases h; rfl
  | cons i is ih =>
    obtain ⟨u, hu⟩ := exec_next i s
    rw [runInstrs_cons hu] at h
    rw [List.cons_append, runInstrs_cons hu]
    exact ih h

/-- The free slots of the call stack are 0 (R37). -/
def FreeSlotsZero (s : State) : Prop := ∀ n : Fin 16, s.sp.val ≤ n.val → s.stack[n.val] = 0

/-- `t` has `k` slots in use, which are the slots of `s`, and its free slots are 0. -/
structure SlotsUpTo (k : Nat) (s t : State) : Prop where
  sp : t.sp.val = k
  free : FreeSlotsZero t
  used : ∀ n : Fin 16, n.val < k → n.val < s.sp.val → t.stack[n.val] = s.stack[n.val]

section
variable {i : Instr} {is : List Instr} {s t u : State} {k m : Nat}

theorem slotsUpTo_of_same (hs : FreeSlotsZero s) (hsp : t.sp = s.sp) (hstack : t.stack = s.stack) :
    SlotsUpTo s.sp.val s t where
  sp := by rw [hsp]
  free n hn := by
    rw [hsp] at hn
    rw [hstack, hs n hn]
  used n _ _ := by rw [hstack]

theorem touchesStack_eq (i : Instr) : touchesStack i = (isCall i || isRet i) := by cases i <;> rfl

/-- An instruction that is neither a CALL nor a RET leaves the call stack alone (R36). -/
theorem exec_slots_of_other (hs : FreeSlotsZero s) (hcall : isCall i = false) (hret : isRet i = false)
    (h : exec i s = .next t) : SlotsUpTo s.sp.val s t := by
  obtain ⟨hsp, hstack⟩ := (effect_of_exec h).callStack_eq (by rw [touchesStack_eq, hcall, hret]; rfl)
  exact slotsUpTo_of_same hs hsp hstack

theorem exec_slots_of_call (hs : FreeSlotsZero s) {nnn : Addr} (hlt : s.sp.val < 16) (h : exec (.call nnn) s = .next t) :
    SlotsUpTo (s.sp.val + 1) s t := by
  rw [exec_call_of_lt nnn hlt] at h
  cases h
  refine ⟨rfl, fun n hn => ?_, fun n _ hn => ?_⟩
  · have hn : s.sp.val + 1 ≤ n.val := hn
    rw [stack_getElem_set _ hlt, if_neg (by omega), hs n (by omega)]
  · rw [stack_getElem_set _ hlt, if_neg (by omega)]

theorem exec_slots_of_ret (hs : FreeSlotsZero s) (hpos : 0 < s.sp.val) (h : exec .ret s = .next t) :
    SlotsUpTo (s.sp.val - 1) s t := by
  rw [exec_ret_of_pos hpos] at h
  cases h
  have htop : s.sp.val - 1 < 16 := by omega
  refine ⟨rfl, fun n hn => ?_, fun n hn _ => ?_⟩
  · have hn : s.sp.val - 1 ≤ n.val := hn
    rw [stack_getElem_set _ htop]
    split_ifs with heq
    · rfl
    · exact hs n (by omega)
  · rw [stack_getElem_set _ htop, if_neg (by omega)]

theorem SlotsUpTo.trans (h : SlotsUpTo k s t) (h' : SlotsUpTo m t u) (hk : min m s.sp.val ≤ k) : SlotsUpTo m s u where
  sp := h'.sp
  free := h'.free
  used n hm hs := by
    have hnk : n.val < k := by omega
    exact (h'.used n hm (by rwa [h.sp])).trans (h.used n hnk hs)

/-- Handlers without a RET take one slot for each CALL. -/
theorem runInstrs_slots_of_no_ret (hs : FreeSlotsZero s) (hret : ∀ i ∈ is, isRet i = false)
    (hroom : is.countP isCall ≤ 16 - s.sp.val) :
    ∃ t, runInstrs is s = .next t ∧ SlotsUpTo (s.sp.val + is.countP isCall) s t := by
  induction is generalizing s with
  | nil => exact ⟨s, rfl, slotsUpTo_of_same hs rfl rfl⟩
  | cons i is ih =>
    obtain ⟨hi, his⟩ := List.forall_mem_cons.1 hret
    obtain ⟨u, hu⟩ := exec_next i s
    rw [List.countP_cons] at hroom ⊢
    have hslots : SlotsUpTo (s.sp.val + if isCall i = true then 1 else 0) s u := by
      split_ifs at hroom ⊢ with hcall
      · cases i with
        | call nnn => exact exec_slots_of_call hs (by omega) hu
        | _ => cases hcall
      · exact exec_slots_of_other hs (Bool.eq_false_iff.2 hcall) hi hu
    obtain ⟨t, ht, hslots'⟩ := ih hslots.free his (by rw [hslots.sp]; omega)
    rw [hslots.sp, Nat.add_assoc, Nat.add_comm (ite _ _ _)] at hslots'
    exact ⟨t, (runInstrs_cons hu).trans ht, hslots.trans hslots' (by omega)⟩

/-- Handlers without a CALL free one slot for each RET. -/
theorem runInstrs_slots_of_no_call (hs : FreeSlotsZero s) (hcall : ∀ i ∈ is, isCall i = false)
    (hused : is.countP isRet ≤ s.sp.val) :
    ∃ t, runInstrs is s = .next t ∧ SlotsUpTo (s.sp.val - is.countP isRet) s t := by
  induction is generalizing s with
  | nil => exact ⟨s, rfl, slotsUpTo_of_same hs rfl rfl⟩
  | cons i is ih =>
    obtain ⟨hi, his⟩ := List.forall_mem_cons.1 hcall
    obtain ⟨u, hu⟩ := exec_next i s
    rw [List.countP_cons] at hused ⊢
    have hslots : SlotsUpTo (s.sp.val - if isRet i = true then 1 else 0) s u := by
      split_ifs at hused ⊢ with hret
      · cases i with
        | ret => exact exec_slots_of_ret hs (by omega) hu
        | _ => cases hret
      · exact exec_slots_of_other hs hi (Bool.eq_false_iff.2 hret) hu
    obtain ⟨t, ht, hslots'⟩ := ih hslots.free his (by rw [hslots.sp]; omega)
    rw [hslots.sp, Nat.sub_sub, Nat.add_comm (ite _ _ _)] at hslots'
    exact ⟨t, (runInstrs_cons hu).trans ht, hslots.trans hslots' (by omega)⟩

/-- Back at the same height the call stack is the same, slot by slot. -/
theorem SlotsUpTo.eq (h : SlotsUpTo s.sp.val s t) (hs : FreeSlotsZero s) : t.sp = s.sp ∧ t.stack = s.stack := by
  refine ⟨Fin.ext h.sp, Vector.ext fun n hn => ?_⟩
  rcases Nat.lt_or_ge n s.sp.val with hlt | hge
  · exact h.used ⟨n, hn⟩ hlt hlt
  · exact (h.free ⟨n, hn⟩ (by rwa [h.sp])).trans (hs ⟨n, hn⟩ hge).symm

end

theorem exec_call_pushed {s t : State} {nnn : Addr} (hlt : s.sp.val < 16) (h : exec (.call nnn) s = .next t) :
    t.stack[s.sp.val] = s.pc := by
  rw [exec_call_of_lt nnn hlt] at h
  cases h
  exact Vector.getElem_set_self _

theorem exec_ret_popped {s t : State} {n : Fin 16} (hn : s.sp.val = n.val + 1) (h : exec .ret s = .next t) :
    t.pc = s.stack[n.val] := by
  rw [exec_ret_of_pos (by omega)] at h
  cases h
  simp only [hn, Nat.add_sub_cancel]

/-- Settles O21: what comes between the first CALL and the last RET leaves the slot of the first CALL in use and as it is, and the last
RET pops it. -/
theorem returnsUndoCalls : Obligations.ReturnsUndoCalls := by
  intro s calls returns nnn hhead hlast hret hcall hcount hroom hs
  obtain ⟨calls, rfl⟩ := List.head?_eq_some_iff.1 hhead
  obtain ⟨returns, rfl⟩ := List.getLast?_eq_some_iff.1 hlast
  have hcount : calls.countP isCall = returns.countP isRet := by
    simpa [List.countP_cons, isCall, isRet] using hcount
  rw [List.countP_cons_of_pos rfl] at hroom
  have hsp : s.sp.val < 16 := by omega
  obtain ⟨u, hu⟩ := exec_next (.call nnn) s
  have hfirst : SlotsUpTo (s.sp.val + 1) s u := exec_slots_of_call hs hsp hu
  obtain ⟨v, hv, hcalls⟩ := runInstrs_slots_of_no_ret hfirst.free (List.forall_mem_cons.1 hret).2
    (by rw [hfirst.sp]; omega)
  obtain ⟨w, hw, hreturns⟩ := runInstrs_slots_of_no_call hcalls.free (List.forall_mem_append.1 hcall).1
    (by rw [hcalls.sp]; omega)
  have hwsp : w.sp.val = s.sp.val + 1 := by rw [hreturns.sp, hcalls.sp, hfirst.sp, hcount, Nat.add_sub_cancel]
  obtain ⟨t, ht⟩ := exec_next .ret w
  have hlast : SlotsUpTo s.sp.val w t := by
    have := exec_slots_of_ret hreturns.free (by omega) ht
    rwa [hwsp, Nat.add_sub_cancel] at this
  have hbetween : SlotsUpTo (s.sp.val + 1) u w := by
    have := hcalls.trans hreturns (by omega)
    rwa [hcalls.sp, hcount, Nat.add_sub_cancel, hfirst.sp] at this
  have hrun : runInstrs (.call nnn :: calls ++ (returns ++ [.ret])) s = .next t := by
    rw [runInstrs_append ((runInstrs_cons hu).trans hv), runInstrs_append hw, runInstrs_cons ht]
    rfl
  obtain ⟨hspEq, hstackEq⟩ := ((hfirst.trans hbetween (by omega)).trans hlast (by omega)).eq hs
  have hpc : t.pc = s.pc := by
    calc t.pc
      _ = w.stack[s.sp.val] := exec_ret_popped (n := ⟨s.sp.val, hsp⟩) hwsp ht
      _ = u.stack[s.sp.val] := hbetween.used ⟨s.sp.val, hsp⟩ (Nat.lt_succ_self _) (by rw [hfirst.sp]; exact Nat.lt_succ_self _)
      _ = s.pc := exec_call_pushed hsp hu
  exact ⟨t, hrun, hspEq, hstackEq, hpc⟩

end Sys2Proof.Machine
end

section
/-! PROOFS of the family other, the table "VF aliasing" (43_alu.md section 3, R161, D8): what the two writes of a flag-writing
instruction leave where a field is VF, or where the fields are equal. -/

namespace Sys2Proof.Machine

/-! The two writes, register by register (R150). -/

section
variable (s : State) (c : Bool)

theorem State.reg_setFlag_vf : (s.setFlag c).reg 15 = flagByte c := s.reg_setReg_self 15 _

variable {s c}

theorem State.reg_setFlag_ne {r : RegIdx} (h : r ≠ 15) : (s.setFlag c).reg r = s.reg r := State.reg_setReg_ne h

theorem State.reg_flagThenResult_self {x : RegIdx} {f : State → Byte} :
    (s.flagThenResult c x f).reg x = f (s.setFlag c) := State.reg_setReg_self _ x _

theorem State.reg_flagThenResult_vf {x : RegIdx} {f : State → Byte} (hx : x ≠ 15) :
    (s.flagThenResult c x f).reg 15 = flagByte c :=
  (State.reg_setReg_ne hx.symm).trans (s.reg_setFlag_vf c)

end

/-! The values the table lists. -/

theorem flagByte_notBorrow (a b : Byte) : flagByte (notBorrow a b) = if b.toNat ≤ a.toNat then 1 else 0 := by
  simp only [flagByte, notBorrow_iff]

theorem flagByte_notBorrow_self (a : Byte) : flagByte (notBorrow a a) = 1 :=
  (flagByte_notBorrow a a).trans (if_pos (Nat.le_refl _))

/-- The flag of 8XY7, said as a borrow. -/
theorem flagByte_notBorrow_of_lt (a b : Byte) : flagByte (notBorrow a b) = if a.toNat < b.toNat then 0 else 1 := by
  simp only [flagByte_notBorrow, ← Nat.not_lt, ite_not]

theorem byte_shiftRight_one_toNat (a : Byte) : (a >>> 1).toNat = a.toNat / 2 := by
  rw [BitVec.toNat_ushiftRight, Nat.shiftRight_one]

theorem byte_shiftLeft_one_toNat (a : Byte) : (a <<< 1).toNat = a.toNat * 2 % 256 := by
  rw [BitVec.toNat_shiftLeft, Nat.shiftLeft_eq]

theorem flagByte_shiftRight_one (c : Bool) : flagByte c >>> 1 = 0 := by cases c <;> decide

theorem flagByte_shiftLeft_one_toNat (c : Bool) : (flagByte c <<< 1).toNat = 2 * (flagByte c).toNat := by cases c <;> decide

/-- The high byte of a sum of two bytes is its carry. -/
theorem addResult_toNat_of_carry (a b : Byte) :
    (addResult a b).toNat = if 255 < a.toNat + b.toNat then 1 else a.toNat + b.toNat := by
  have := a.isLt
  have := b.isLt
  rw [addResult_toNat]
  split <;> omega

/-- Settles O32: row by row, in the columns X = 15, Y = 15, both, X = Y. In a row of a result after a flag, X = 15 reads the result off
VF, and a 15 among the operands reads the flag. -/
theorem resultsWhenAFieldNamesVf : Obligations.ResultsWhenAFieldNamesVf := by
  intro s x y hx hy
  refine ⟨⟨_, rfl, ?add15y⟩, ⟨_, rfl, ?addx15⟩, ⟨_, rfl, ?add1515⟩, ⟨_, rfl, ?addxx⟩,
    ⟨_, rfl, ?sub15y⟩, ⟨_, rfl, ?subx15⟩, ⟨_, rfl, ?sub1515⟩, ⟨_, rfl, ?subxx⟩,
    ⟨_, rfl, ?shr15y⟩, ⟨_, rfl, ?shrx15⟩, ⟨_, rfl, ?shr1515⟩, ⟨_, rfl, ?shrxx⟩,
    ⟨_, rfl, ?subn15y⟩, ⟨_, rfl, ?subnx15⟩, ⟨_, rfl, ?subn1515⟩, ⟨_, rfl, ?subnxx⟩,
    ⟨_, rfl, ?shl15y⟩, ⟨_, rfl, ?shlx15⟩, ⟨_, rfl, ?shl1515⟩, ⟨_, rfl, ?shlxx⟩⟩
  case add15y => simp only [State.reg_setFlag_vf, flagByte_carryOf_toNat]
  case addx15 =>
    simp only [State.reg_setFlag_vf, State.reg_setFlag_ne hx, State.reg_setReg_self, flagByte_carryOf_toNat,
      addResult_toNat_of_carry, and_self]
  case add1515 => simp only [State.reg_setFlag_vf, flagByte_carryOf_toNat, two_mul]
  case addxx =>
    simp only [State.reg_setFlag_vf, State.reg_setFlag_ne hx, State.reg_setReg_self, flagByte_carryOf_toNat,
      addResult_toNat_of_carry, two_mul, and_self]
  case sub15y =>
    simp only [State.reg_flagThenResult_self, State.reg_setFlag_vf, State.reg_setFlag_ne hy, flagByte_notBorrow]
  case subx15 =>
    simp only [State.reg_flagThenResult_self, State.reg_flagThenResult_vf hx, State.reg_setFlag_vf, State.reg_setFlag_ne hx,
      flagByte_notBorrow, and_self]
  case sub1515 => simp only [State.reg_flagThenResult_self, sub_self]
  case subxx =>
    simp only [State.reg_flagThenResult_self, State.reg_flagThenResult_vf hx, flagByte_notBorrow_self, sub_self, and_self]
  case shr15y => simp only [State.reg_flagThenResult_self, State.reg_setFlag_ne hy, byte_shiftRight_one_toNat]
  case shrx15 =>
    simp only [State.reg_flagThenResult_self, State.reg_flagThenResult_vf hx, State.reg_setFlag_vf, flagByte_bitZero_toNat,
      flagByte_shiftRight_one, and_self]
  case shr1515 => simp only [State.reg_flagThenResult_self, State.reg_setFlag_vf, flagByte_shiftRight_one]
  case shrxx =>
    simp only [State.reg_flagThenResult_self, State.reg_flagThenResult_vf hx, State.reg_setFlag_ne hx, flagByte_bitZero_toNat,
      byte_shiftRight_one_toNat, and_self]
  case subn15y =>
    simp only [State.reg_flagThenResult_self, State.reg_setFlag_vf, State.reg_setFlag_ne hy, flagByte_notBorrow_of_lt]
  case subnx15 =>
    simp only [State.reg_flagThenResult_self, State.reg_flagThenResult_vf hx, State.reg_setFlag_vf, State.reg_setFlag_ne hx,
      flagByte_notBorrow_of_lt, and_self]
  case subn1515 => simp only [State.reg_flagThenResult_self, sub_self]
  case subnxx =>
    simp only [State.reg_flagThenResult_self, State.reg_flagThenResult_vf hx, flagByte_notBorrow_self, sub_self, and_self]
  case shl15y => simp only [State.reg_flagThenResult_self, State.reg_setFlag_ne hy, byte_shiftLeft_one_toNat]
  case shlx15 =>
    simp only [State.reg_flagThenResult_self, State.reg_flagThenResult_vf hx, State.reg_setFlag_vf, flagByte_bitSeven_toNat,
      flagByte_shiftLeft_one_toNat, and_self]
  case shl1515 =>
    simp only [State.reg_flagThenResult_self, State.reg_setFlag_vf, flagByte_shiftLeft_one_toNat, flagByte_bitSeven_toNat]
  case shlxx =>
    simp only [State.reg_flagThenResult_self, State.reg_flagThenResult_vf hx, State.reg_setFlag_ne hx, flagByte_bitSeven_toNat,
      byte_shiftLeft_one_toNat, and_self]

end Sys2Proof.Machine
end

section
/-! PROOFS of the family other, the draw that raises no fault (44_display.md, R171, R174): what it toggles, and the same draw twice. -/

namespace Sys2Proof.Machine

section
variable {s t : State} {x y n : Nat}

/-- Where a draw fits, no check fails (R216). -/
theorem drawFailure_eq_none (h : DrawFits s x y n) {p : Nat × Nat} (hp : p ∈ drawOrder n) : drawFailure s x y p = none := by
  obtain ⟨hrow, hcol⟩ := mem_drawOrder.1 hp
  have hmem := h.1 p.1 hrow
  have hbit (hset : SpriteBitSet s p.1 p.2 = true) := h.2 _ ⟨p.1, hrow, p.2, hcol, hset, rfl⟩
  rw [drawFailure, if_neg (by omega), if_neg]
  rintro ⟨hset, hgt⟩
  exact absurd (hbit hset) (by omega)

theorem findSome?_drawFailure (h : DrawFits s x y n) : (drawOrder n).findSome? (drawFailure s x y) = none :=
  List.findSome?_eq_none_iff.2 fun _ hp => drawFailure_eq_none h hp

/-- Where a draw fits, it toggles the pixels it addresses. -/
theorem mem_drawnPixels_iff (h : DrawFits s x y n) (p : Nat) : p ∈ drawnPixels s x y n ↔ Addresses s x y n p := by
  have hall : (drawOrder n).takeWhile (fun q => (drawFailure s x y q).isNone) = drawOrder n :=
    List.takeWhile_eq_self_iff.2 fun q hq => by rw [drawFailure_eq_none h hq]; rfl
  simp only [drawnPixels, hall, List.mem_map, List.mem_filter, mem_drawOrder, Addresses, Prod.exists]
  constructor
  · rintro ⟨row, col, ⟨⟨hrow, hcol⟩, hset⟩, rfl⟩
    exact ⟨row, hrow, col, hcol, hset, rfl⟩
  · rintro ⟨row, hrow, col, hcol, hset, rfl⟩
    exact ⟨row, col, ⟨⟨hrow, hcol⟩, hset⟩, rfl⟩

/-- What a draw addresses depends on memory and `I` alone. -/
theorem addresses_congr (hmem : t.mem = s.mem) (hI : t.regI = s.regI) : Addresses t x y n = Addresses s x y n := by
  funext p
  simp only [Addresses, SpriteBitSet, hmem, hI]

theorem DrawFits.congr (h : DrawFits s x y n) (hmem : t.mem = s.mem) (hI : t.regI = s.regI) : DrawFits t x y n := by
  rw [DrawFits, addresses_congr hmem hI, hI]
  exact h

end

/-- Settles O35: no check fails, so that the pixels toggled are those of all set bits. -/
theorem drawTogglesWhatItAddresses : Obligations.DrawTogglesWhatItAddresses := by
  intro s x y n hfits
  obtain ⟨u, ⟨⟨hframe, hregs⟩, hpixels, hflag⟩, hexec⟩ := exec_drw_drawn s x y n
  rw [findSome?_drawFailure hfits] at hexec
  have hlit : (∃ p ∈ drawnPixels s (s.reg x).toNat (s.reg y).toNat n.toNat, s.pixel p = true) ↔
      ∃ p, Addresses s (s.reg x).toNat (s.reg y).toNat n.toNat p ∧ s.pixel p = true :=
    exists_congr fun p => and_congr_left' (mem_drawnPixels_iff hfits p)
  refine ⟨u.setRedraw, hexec, congrArg State.setRedraw hframe, hregs, fun p hp => ?pixels, fun hsome => ?lit, fun hnone => ?unlit⟩
  case pixels =>
    rw [← mem_drawnPixels_iff hfits, show u.setRedraw.pixel p = u.pixel p from rfl, hpixels p hp]
    cases s.pixel p <;> simp
  case lit => exact hflag.trans (if_pos (hlit.2 hsome))
  case unlit => exact hflag.trans (if_neg (mt hlit.1 hnone))

/-- A bit that is toggled twice or not at all is as before. -/
theorem bool_eq_of_toggled_alike : ∀ {a b c : Bool}, (b ≠ a ↔ c ≠ b) → c = a := by decide

/-- Settles O36: the second draw finds the same coordinates, rows and set bits, and toggles the same pixels back; a collision is a pixel
that the first draw has lit. -/
theorem drawTwiceRestoresTheFramebuffer : Obligations.DrawTwiceRestoresTheFramebuffer := by
  intro s x y n hx hy hfits
  obtain ⟨t, ht, hframe, hregs, hpixels, -, -⟩ := drawTogglesWhatItAddresses s x y n hfits
  have hmem : t.mem = s.mem := by rw [hframe]
  have hI : t.regI = s.regI := by rw [hframe]
  have hagain := drawTogglesWhatItAddresses t x y n
  rw [hregs x hx, hregs y hy, addresses_congr hmem hI] at hagain
  obtain ⟨u, hu, -, -, hpixels', hlit, hunlit⟩ := hagain (hfits.congr hmem hI)
  have htoggled {p : Nat} (hp : Addresses s (s.reg x).toNat (s.reg y).toNat n.toNat p) :
      t.pixel p = true ↔ s.pixel p = false := by
    have hne := (hpixels p (Nat.lt_succ_of_le (hfits.2 p hp))).2 hp
    rw [Bool.eq_not.2 hne]
    cases s.pixel p <;> decide
  refine ⟨t, u, ht, hu, State.ext_pixel fun p hp => ?fb, ?collision⟩
  case fb => exact bool_eq_of_toggled_alike ((hpixels p hp).trans (hpixels' p hp).symm)
  case collision =>
    constructor
    · intro h1
      by_contra hnone
      rw [hunlit] at h1
      · exact absurd h1 (by decide)
      · rintro ⟨p, hp, hlitp⟩
        exact hnone ⟨p, hp, (htoggled hp).1 hlitp⟩
    · rintro ⟨p, hp, hoff⟩
      exact hlit ⟨p, hp, (htoggled hp).2 hoff⟩

end Sys2Proof.Machine
end

section
/-! PROOFS of the family other, LOAD and the boot sequence (R42, R241 to R243, R249). -/

namespace Sys2Proof.Machine

/-- Settles O53: the step is one write of memory, inside its bounds. -/
theorem loadWritesOneByteBeforeTheFirstTick : Obligations.LoadWritesOneByteBeforeTheFirstTick :=
  fun _ a _ _ hi hs hm hwf => ⟨_, step_of_load hi hs hm, rfl, Memory.wf_write hwf a.isLt, Memory.read_write hwf⟩

/-- The boot sequence is the font's events and then the image's, where the loader accepts the image (R241 to R243). -/
theorem bootInputs_of_le (font : Vector Byte 80) {image : List Byte} (h : image.length ≤ 3584) :
    bootInputs font image = some (fontInputs font ++ loadInputs 512 image) := by
  rw [bootInputs, programInputs, imageWellFormed, if_pos (decide_eq_true h)]
  rfl

theorem bootInputs_of_gt (font : Vector Byte 80) {image : List Byte} (h : 3584 < image.length) :
    bootInputs font image = none := by
  have hnot : imageWellFormed image = false := decide_eq_false (Nat.not_le.2 h)
  rw [bootInputs, programInputs, hnot]
  rfl

section
variable (font : Vector Byte 80) {image : List Byte} (h : image.length ≤ 3584)
include h

theorem image_fits : 512 + image.length ≤ 4096 := Nat.add_le_add_left h 512

theorem fontInputs_append_length : (fontInputs font ++ loadInputs 512 image).length = 80 + image.length := by
  rw [List.length_append, fontInputs, loadInputs_length (font_fits font), loadInputs_length (image_fits h),
    Vector.length_toList]

/-- The boot events, one a step from reset, lead to the booted state (R249). -/
theorem run_bootInputs :
    Host.Core.run Sys2Proof.core (80 + image.length) { State.reset with inputs := fontInputs font ++ loadInputs 512 image } =
      .next (State.booted font image) := by
  have hfont := run_fontInputs font (s := State.reset) rfl (by decide) (loadInputs 512 image) image.length
  have himage := run_loadInputs (image_fits h)
    (s := { State.reset with inputs := loadInputs 512 image, mem := Memory.withFont [] font }) (rest := [])
    (List.append_nil _).symm rfl (show State.reset.mode ≠ .halted by decide) 0
  exact hfont.trans himage

/-- Memory of the booted state: the image from 512, the font from 0, and 0 elsewhere (R249). -/
theorem booted_mem_read (a : Nat) :
    (State.booted font image).mem.read a = if a < 80 then font.toList.getD a 0
      else if 512 ≤ a ∧ a < 512 + image.length then image.getD (a - 512) 0 else 0 := by
  have hread : (State.booted font image).mem.read a =
      if 512 ≤ a ∧ a < 512 + image.length then image.getD (a - 512) 0 else (Memory.withFont [] font).read a :=
    Memory.read_writeBytes (Memory.wf_withFont font rfl) (image_fits h) a
  rw [hread]
  rcases Nat.lt_or_ge a 80 with hlt | hge
  · rw [if_pos hlt, if_neg (by omega), Memory.read_withFont_of_lt font rfl ⟨a, hlt⟩, vector_toList_getD _ hlt]
  · rw [if_neg (Nat.not_lt.2 hge), Memory.read_withFont_of_ge font rfl hge, Memory.read_nil]

end

/-- Settles O54: for an image the loader accepts, the font's run and then the image's. -/
theorem bootLeadsToTheBootedState : Obligations.BootLeadsToTheBootedState := by
  refine fun font image => ⟨fun h => ?_, bootInputs_of_gt font⟩
  refine ⟨_, State.booted font image, bootInputs_of_le font h, ?run, rfl, rfl, ?wf, booted_mem_read font h⟩
  case run => rw [fontInputs_append_length font h, run_bootInputs font h]
  case wf => exact Memory.wf_writeBytes (Memory.wf_withFont font rfl) (image_fits h)

end Sys2Proof.Machine
end

section
/-! PROOFS of the family other, what instructions do not read (10_state.md section 7, R24, R30, R32, R38, R41, R102). A change of the
fields that only some instructions read is applied before an instruction and after it; for an instruction that reads none of the
fields changed the two agree. -/

namespace Sys2Proof.Machine

/-- A change of ST, the redraw flag, `I`, DT, the keypad and the random byte, each by a function of its own. -/
structure HiddenChange where
  st : Byte → Byte := id
  shouldRedraw : Bool → Bool := id
  regI : Word → Word := id
  dt : Byte → Byte := id
  keypad : Vector Bool 16 → Vector Bool 16 := id
  rnd : Byte → Byte := id

/-- The state with those fields changed. -/
def State.withChange (c : HiddenChange) (s : State) : State :=
  { s with st := c.st s.st, shouldRedraw := c.shouldRedraw s.shouldRedraw, regI := c.regI s.regI, dt := c.dt s.dt,
           keypad := c.keypad s.keypad, rnd := c.rnd s.rnd }

/-- Whichever of these fields the instruction reads or sets, the change leaves it alone. -/
def HiddenChange.Unread (c : HiddenChange) : Instr → Prop
  | .cls => c.shouldRedraw = id
  | .drw _ _ _ => c.shouldRedraw = id ∧ c.regI = id
  | .ldI _ => c.regI = id
  | .ldDt _ => c.dt = id
  | .skp _ | .sknp _ => c.keypad = id
  | .rnd _ _ => c.rnd = id
  | _ => True

/-- The loop of a draw commutes with a change of fields other than `I`. -/
theorem forEach_drawRow_change {c : HiddenChange} (hI : c.regI = id) (x y : Nat) (rows : List Nat) (s : State) :
    forEach (drawRow x y) rows (s.withChange c) = (forEach (drawRow x y) rows s).mapState (State.withChange c) := by
  have hbit (row : Nat) (b : Byte) (col : Nat) (s : State) :
      drawBit x y row b col (s.withChange c) = (drawBit x y row b col s).mapState (State.withChange c) := by
    have hblit (k : Nat) : (s.withChange c).blitPixel k = (s.blitPixel k).withChange c := by
      rw [State.blitPixel, State.blitPixel, show (s.withChange c).pixel k = s.pixel k from rfl]
      split <;> rfl
    unfold drawBit
    split_ifs
    · exact congrArg Flow.go (hblit _)
    · rfl
    · rfl
  refine forEach_commutes (fun row s => ?_) rows s
  have haddr : rowAddr (s.withChange c) row = rowAddr s row := by
    rw [rowAddr, State.withChange, hI]; rfl
  rw [drawRow, drawRow, haddr, show (s.withChange c).memRead? = s.memRead? from rfl]
  cases s.memRead? (rowAddr s row) with
  | some b => exact forEach_commutes (hbit row b) (List.range 8) s
  | none => rfl

theorem execDrw_of_go {x y : RegIdx} {n : Nibble} {s u : State}
    (h : forEach (drawRow (s.reg x).toNat (s.reg y).toNat) (List.range n.toNat) (s.setFlag false) = .go u) :
    exec (.drw x y n) s = .next u.setRedraw := by
  rw [exec, execDrw, h]

theorem execDrw_of_stop {x y : RegIdx} {n : Nibble} {s u : State} {f : Fault} {info : Nat}
    (h : forEach (drawRow (s.reg x).toNat (s.reg y).toNat) (List.range n.toNat) (s.setFlag false) = .stop f info u) :
    exec (.drw x y n) s = .next (u.halt f (some info)) := by
  rw [exec, execDrw, h]
  rfl

section
variable {s t : State} (c : HiddenChange)

/-- A draw after a change of fields other than `I`: the change is there after it, under the redraw flag the draw sets if it completes. -/
theorem exec_drw_change_cases (hI : c.regI = id) {x y : RegIdx} {n : Nibble} (h : exec (.drw x y n) s = .next t) :
    exec (.drw x y n) (s.withChange c) = .next (t.withChange c) ∨
      ∃ u : State, t = u.setRedraw ∧ exec (.drw x y n) (s.withChange c) = .next (u.withChange c).setRedraw := by
  have hloop := forEach_drawRow_change hI (s.reg x).toNat (s.reg y).toNat (List.range n.toNat) (s.setFlag false)
  cases hs : forEach (drawRow (s.reg x).toNat (s.reg y).toNat) (List.range n.toNat) (s.setFlag false) with
  | go u =>
    rw [hs] at hloop
    cases (execDrw_of_go hs).symm.trans h
    exact .inr ⟨u, rfl, execDrw_of_go (s := s.withChange c) hloop⟩
  | stop f info u =>
    rw [hs] at hloop
    cases (execDrw_of_stop hs).symm.trans h
    exact .inl (execDrw_of_stop (s := s.withChange c) hloop)

theorem exec_drw_change {x y : RegIdx} {n : Nibble} (hc : c.Unread (.drw x y n)) (h : exec (.drw x y n) s = .next t) :
    exec (.drw x y n) (s.withChange c) = .next (t.withChange c) := by
  obtain ⟨hredraw, hI⟩ := hc
  obtain hsame | ⟨u, rfl, hu⟩ := exec_drw_change_cases c hI h
  · exact hsame
  · obtain ⟨⟩ := c
    cases hredraw
    exact hu

theorem State.skipIf_withChange (s : State) (b : Bool) : (s.withChange c).skipIf b = (s.skipIf b).withChange c := by cases b <;> rfl

theorem exec_ret_change (h : exec .ret s = .next t) : exec .ret (s.withChange c) = .next (t.withChange c) := by
  rcases Nat.eq_zero_or_pos s.sp.val with hempty | hpos
  · cases (exec_ret_of_empty hempty).symm.trans h
    exact exec_ret_of_empty (s := s.withChange c) hempty
  · cases (exec_ret_of_pos hpos).symm.trans h
    exact exec_ret_of_pos (s := s.withChange c) hpos

theorem exec_call_change {nnn : Addr} (h : exec (.call nnn) s = .next t) :
    exec (.call nnn) (s.withChange c) = .next (t.withChange c) := by
  rcases Nat.lt_or_ge s.sp.val 16 with hlt | hfull
  · cases (exec_call_of_lt nnn hlt).symm.trans h
    exact exec_call_of_lt (s := s.withChange c) nnn hlt
  · have hsp : s.sp.val = 16 := by omega
    cases (exec_call_of_full nnn hsp).symm.trans h
    exact exec_call_of_full (s := s.withChange c) nnn hsp

theorem exec_skp_change {x : RegIdx} (hk : c.keypad = id) (h : exec (.skp x) s = .next t) :
    exec (.skp x) (s.withChange c) = .next (t.withChange c) := by
  obtain ⟨⟩ := c
  cases hk
  rcases Nat.lt_or_ge (s.reg x).toNat 16 with hkey | hbounds
  · cases (exec_skp_of_lt hkey).symm.trans h
    exact (exec_skp_of_lt (s := s.withChange _) hkey).trans (congrArg _ (State.skipIf_withChange _ s _))
  · cases (exec_skp_of_gt hbounds).symm.trans h
    exact exec_skp_of_gt (s := s.withChange _) hbounds

theorem exec_sknp_change {x : RegIdx} (hk : c.keypad = id) (h : exec (.sknp x) s = .next t) :
    exec (.sknp x) (s.withChange c) = .next (t.withChange c) := by
  obtain ⟨⟩ := c
  cases hk
  rcases Nat.lt_or_ge (s.reg x).toNat 16 with hkey | hbounds
  · cases (exec_sknp_of_lt hkey).symm.trans h
    exact (exec_sknp_of_lt (s := s.withChange _) hkey).trans (congrArg _ (State.skipIf_withChange _ s _))
  · cases (exec_sknp_of_gt hbounds).symm.trans h
    exact exec_sknp_of_gt (s := s.withChange _) hbounds

/-- An instruction that reads none of the fields changed answers the same state with the same change. -/
theorem exec_change {i : Instr} (hc : c.Unread i) (h : exec i s = .next t) : exec i (s.withChange c) = .next (t.withChange c) := by
  cases i with
  | ret => exact exec_ret_change c h
  | call nnn => exact exec_call_change c h
  | drw x y n => exact exec_drw_change c hc h
  | skp x => exact exec_skp_change c hc h
  | sknp x => exact exec_sknp_change c hc h
  | seByte | sneByte | seReg | sneReg =>
    cases h
    exact congrArg _ (State.skipIf_withChange c s _)
  | cls | ldI | ldDt | rnd =>
    obtain ⟨⟩ := c
    cases hc
    cases h
    rfl
  | _ => cases h; rfl

end

/-- Settles O51: each clause changes one field; for the redraw flag, which the screen instructions set, by the end of the draw. -/
theorem instructionsDoNotReadHiddenState : Obligations.InstructionsDoNotReadHiddenState := by
  intro i s t h
  refine ⟨fun a => ?st, fun b => ?redraw, fun hdrw hldI a => ?regI, fun hldDt a => ?dt, fun hskip a => ?keypad,
    fun hrnd a => ?rnd⟩
  case st => exact exec_change { st := fun _ => a } (by cases i <;> simp [HiddenChange.Unread]) h
  case redraw =>
    cases i with
    | cls => cases h; exact .inr ⟨rfl, rfl⟩
    | drw x y n =>
      obtain hsame | ⟨u, rfl, hu⟩ := exec_drw_change_cases { shouldRedraw := fun _ => b } rfl h
      · exact .inl hsame
      · exact .inr ⟨rfl, hu⟩
    | _ => exact .inl (exec_change { shouldRedraw := fun _ => b } (by simp [HiddenChange.Unread]) h)
  case regI =>
    refine exec_change { regI := fun _ => a } ?_ h
    cases i with
    | drw x y n => exact absurd rfl (hdrw x y n)
    | ldI nnn => exact absurd rfl (hldI nnn)
    | _ => simp [HiddenChange.Unread]
  case dt =>
    refine exec_change { dt := fun _ => a } ?_ h
    cases i with
    | ldDt x => exact absurd rfl (hldDt x)
    | _ => simp [HiddenChange.Unread]
  case keypad =>
    refine exec_change { keypad := fun _ => a } ?_ h
    cases i with
    | skp x => exact absurd rfl (hskip x).1
    | sknp x => exact absurd rfl (hskip x).2
    | _ => simp [HiddenChange.Unread]
  case rnd =>
    refine exec_change { rnd := fun _ => a } ?_ h
    cases i with
    | rnd x nn => exact absurd rfl (hrnd x nn)
    | _ => simp [HiddenChange.Unread]

end Sys2Proof.Machine
end
